-- ==== Sys2Proof/Word.lean ====
section
/-! DEFINITION. The widths of the ISB: bytes of the two memories, 16-bit samples, 32-bit registers and port words. -/

namespace Sys2Proof

/-- A byte of STORE or DEST (20_memory.md R28). -/
abbrev Byte := BitVec 8

/-- A 16-bit sample pattern (00_scope.md R2); its signed value is two's complement (92 D17). -/
abbrev Sample := BitVec 16

/-- A register, a command word, an operand word or a response word (92 D7; 30_encoding.md R44, R45, R47). -/
abbrev Word := BitVec 32

end Sys2Proof
end

