-- ==== Sys2Proof/Syntax.lean ====
section
/-! DEFINITION. The commands of the ISB, one constructor for each row of spec/opcode_table.json, and the names
of channels and fault causes. -/

namespace Sys2Proof

/-- The commands (30_encoding.md R46, R48). `ch` is the CH field as encoded: the values 2 to 15 name no
channel, are well-formed, and fault when run (R52, R56). -/
inductive Instr where
  /-- APPEND.S: one 16-bit sample for channel `ch` (40_append.md R58). -/
  | appendS (ch : BitVec 4) (value : Sample)
  /-- APPEND.B: a block of binary32 samples `F[0]`, `F[1]`, … for channel `ch` (40_append.md R60). -/
  | appendB (ch : BitVec 4) (samples : List Word)
  /-- FINALIZE (41_finalize_read.md R67). -/
  | finalize
  /-- READ of at most `maxCount` bytes to the destination offset `destOff` (41_finalize_read.md R69). -/
  | read (maxCount : BitVec 28) (destOff : Word)
  /-- RESET (42_reset.md R75). -/
  | reset
  /-- AVAIL (41_finalize_read.md R72). -/
  | avail
deriving DecidableEq, Repr

/-- The two channels (00_scope.md R2). -/
inductive Channel where
  | ch0
  | ch1
deriving DecidableEq, Repr

/-- The causes of a fault (60_exceptions.md R78). -/
inductive Cause where
  /-- OP reserved, or a reserved field not 0 (30_encoding.md R50, R51). -/
  | illegalCommand
  /-- An append whose CH is 2 or more (30_encoding.md R52). -/
  | badChannel
  /-- The number of operand words is not the opcode's (30_encoding.md R53). -/
  | badLength
  /-- The last byte of an append would lie at or past CAP (40_append.md R61). -/
  | writeOverflow
  /-- READ would write past DEST_SIZE (41_finalize_read.md R71). -/
  | destBounds
deriving DecidableEq, Repr

end Sys2Proof
end

