-- ==== Sys2Proof/WellFormed.lean ====
section
/-! DEFINITION. Which terms of `Instr` are commands: the checks that the types of the fields do not make. -/

namespace Sys2Proof

/-- The widths of the fields are in the types. What is left is the length of a block, exactly 32 samples
(30_encoding.md R45). A channel index of 2 or more is well-formed (R52). -/
def Instr.wellFormed : Instr → Bool
  | .appendS _ _ => true
  | .appendB _ samples => samples.length == 32
  | .finalize => true
  | .read _ _ => true
  | .reset => true
  | .avail => true

end Sys2Proof
end

