-- ==== Sys2Proof/Decode.lean ====
section
/-! DEFINITION. Decoding of a command transaction, total on any word and any operand list and rejecting by
the cause of the fault (30_encoding.md R55), and after it the encoder. -/

namespace Sys2Proof

/-- OP, bits [31:28] (30_encoding.md R44, R46). -/
def opField (w : Word) : BitVec 4 := w.extractLsb' 28 4

/-- Bits [27:20], reserved in formats S and B (30_encoding.md R46, R51). -/
def reservedHigh (w : Word) : BitVec 8 := w.extractLsb' 20 8

/-- CH, bits [19:16] (30_encoding.md R46). -/
def chField (w : Word) : BitVec 4 := w.extractLsb' 16 4

/-- VALUE, bits [15:0] (30_encoding.md R46); reserved in format B. -/
def valueField (w : Word) : BitVec 16 := w.extractLsb' 0 16

/-- MAXCOUNT, bits [27:0] (30_encoding.md R46); reserved in format N. -/
def maxCountField (w : Word) : BitVec 28 := w.extractLsb' 0 28

/-- The number of operand words of an opcode: 32 for APPEND.B, 1 for READ, 0 for every other
(30_encoding.md R45, R54). -/
def operandCount (op : BitVec 4) : Nat :=
  match op.toNat with
  | 2 => 32
  | 4 => 1
  | _ => 0

/-- `i` for a transaction with the operand count its opcode asks for, BAD_LENGTH for any other
(30_encoding.md R53). -/
def withLength (ok : Bool) (i : Instr) : Except Cause Instr :=
  if ok then .ok i else .error .badLength

/-- A command of format N: all other bits 0, no operand words (30_encoding.md R51, R53). -/
def decodeN (w : Word) (ops : List Word) (i : Instr) : Except Cause Instr :=
  if maxCountField w ≠ 0 then .error .illegalCommand else withLength ops.isEmpty i

/-- The checks of 30_encoding.md R55 on the encoding: ILLEGAL_COMMAND, then BAD_LENGTH. Its last check,
BAD_CHANNEL, is the first thing the meaning of an append does, so the order of R83 is kept (DEDUCED, safe:
log 12). -/
def decode (w : Word) (ops : List Word) : Except Cause Instr :=
  match (opField w).toNat with
  | 1 =>
    if reservedHigh w ≠ 0 then .error .illegalCommand
    else withLength ops.isEmpty (.appendS (chField w) (valueField w))
  | 2 =>
    if reservedHigh w ≠ 0 ∨ valueField w ≠ 0 then .error .illegalCommand
    else withLength (ops.length == 32) (.appendB (chField w) ops)
  | 3 => decodeN w ops .finalize
  | 4 =>
    match ops with
    | [destOff] => .ok (.read (maxCountField w) destOff)
    | _ => .error .badLength
  | 5 => decodeN w ops .reset
  | 6 => decodeN w ops .avail
  | _ => .error .illegalCommand

/-- The command word of a command (30_encoding.md R46, R48): OP, the reserved bits 0, the fields. -/
def commandWord : Instr → Word
  | .appendS ch value => 1#4 ++ 0#8 ++ ch ++ value
  | .appendB ch _ => 2#4 ++ 0#8 ++ ch ++ 0#16
  | .finalize => 3#4 ++ 0#28
  | .read maxCount _ => 4#4 ++ maxCount
  | .reset => 5#4 ++ 0#28
  | .avail => 6#4 ++ 0#28

/-- The operand words of a command (30_encoding.md R45). -/
def operandWords : Instr → List Word
  | .appendB _ samples => samples
  | .read _ destOff => [destOff]
  | .appendS _ _ | .finalize | .reset | .avail => []

/-- The transaction of a command: its command word and its operand words (30_encoding.md R45). -/
def encode (i : Instr) : Word × List Word := (commandWord i, operandWords i)

/-- A row of the match and mask table of 30_encoding.md R48. -/
structure EncodingRow where
  pattern : Word
  mask : Word
  operands : Nat
deriving DecidableEq, Repr

/-- The match and mask table of 30_encoding.md R48, with the operand counts of R45. -/
def encodingRows : List EncodingRow :=
  [ { pattern := 0x10000000, mask := 0xFFF00000, operands := 0 },
    { pattern := 0x20000000, mask := 0xFFF0FFFF, operands := 32 },
    { pattern := 0x30000000, mask := 0xFFFFFFFF, operands := 0 },
    { pattern := 0x40000000, mask := 0xF0000000, operands := 1 },
    { pattern := 0x50000000, mask := 0xFFFFFFFF, operands := 0 },
    { pattern := 0x60000000, mask := 0xFFFFFFFF, operands := 0 } ]

/-- The `k` operand words that stand above the command word in the number `w` (word `j` is bits
`32j + 63` to `32j + 32`). -/
def tableOperands : Nat → Nat → List Word
  | 0, _ => []
  | k + 1, w => BitVec.ofNat 32 (w / 2 ^ 32) :: tableOperands k (w / 2 ^ 32)

/-- The transaction whose bits are the low `nbits` bits of `w`, bit 0 the least significant bit of the
command word, the operand words above it, every bit above `nbits` 0. The opcode alone gives the number of
operand words (30_encoding.md R54). -/
def tableTransaction (nbits w : Nat) : Word × List Word :=
  let bits := w % 2 ^ nbits
  let cmd : Word := BitVec.ofNat 32 bits
  (cmd, tableOperands (operandCount (opField cmd)) bits)

/-- The command the decoder reads from the bits of a row of the opcode table. -/
def decodeTableWord (nbits w : Nat) : Option Instr :=
  match decode (tableTransaction nbits w).1 (tableTransaction nbits w).2 with
  | .ok i => some i
  | .error _ => none

end Sys2Proof
end

