-- ==== Sys2Proof/Config.lean ====
section
/-! DEFINITION. What an implementation fixes (CAP, DEST_SIZE) and the free values of the spec (its draws). -/

namespace Sys2Proof

/-- The two open parameters of an ISB (00_scope.md R5, R6). They are held in the state, no step changes
them, and every statement is about every legal pair of them (log 1). -/
structure Params where
  /-- CAP, the size of the store in bytes (R5). -/
  cap : Nat
  /-- DEST_SIZE, the size of the consumer's destination memory in bytes (R6). -/
  destSize : Nat
deriving DecidableEq, Repr

/-- The constraints of 00_scope.md R5 and R6. Parameters outside them are refused (92 D6; log 2). -/
def Params.legal (p : Params) : Bool :=
  decide (4 ≤ p.cap ∧ p.cap ≤ 2 ^ 27 ∧ p.cap % 4 = 0 ∧ p.destSize ≤ 2 ^ 32)

/-- FRAMES, the number of frames the store holds (00_scope.md R7). -/
def Params.frames (p : Params) : Nat := p.cap / 4

/-- The parameters of the machine `State.reset` describes. DESIGN CHOICE, unsafe for a statement about
`State.reset` alone: the spec gives neither a value (log 1). -/
def Config.resetParams : Params := { cap := 256, destSize := 256 }

/-- FREE VALUE. The `n`-th draw taken since the start, where it is a byte of STORE that no append has
written (20_memory.md R31). No body: nothing can be proved of its value (log 7). -/
opaque Config.freeByte : Nat → Byte

/-- FREE VALUE. The `n`-th draw taken since the start, where it is the sample a NaN converts to
(40_append.md R64). No body: nothing can be proved of its value (log 7, log 8). -/
opaque Config.freeSample : Nat → Sample

end Sys2Proof
end

