-- ==== Sys2Proof/Machine/State.lean ====
section
/-! DEFINITION. The state of the ISB and of the other sides of its ports, as plain data; the reasons a step can
stop; the state after power-on reset. -/

namespace Sys2Proof.Machine

/-- Why the machine is stuck. -/
inductive Fault where
  /-- Raised by every command, and by a step with no power-on reset to take, in a halted ISB: FAULT.CAUSE is
  not 0, the command port takes no transaction, the state is stuck and not final (60_exceptions.md R82).
  Safe: the ISB has no such step either (log 6). -/
  | halted
deriving DecidableEq, Repr

/-- Why the model gives no meaning. -/
inductive Refusal where
  /-- An instruction with no meaning in this model. Raised by nothing: every command has its meaning. Safe. -/
  | notModelled (mnemonic : String)
  /-- CAP or DEST_SIZE is outside the constraints of 00_scope.md R5 and R6: no ISB has such parameters, and
  the model refuses them (92 D6; log 2). Raised by every step of such a state. Safe. -/
  | illegalParameters
deriving DecidableEq, Repr

/-- Bytes by address, in one canonical form: addresses strictly rising (`Memory.wf`). An unlisted address has
NO value: in STORE it is a byte no append has written, in DEST a byte the ISB has not written (log 9, log 10). -/
abbrev Memory := List Host.Cell

/-- What the ISB takes from the host, one a step (30_encoding.md section 1). -/
inductive HostInput where
  /-- A command transaction: a command word and its operand words, as delivered (30_encoding.md R45). -/
  | command (word : Word) (operands : List Word)
  /-- The power-on reset input (70_reset_and_hazards.md R91, R92). -/
  | powerOnReset
deriving DecidableEq, Repr

/-- Everything the spec gives the machine (10_state.md R13), and what stands on the other side of its ports. -/
structure State where
  /-- CAP and DEST_SIZE (00_scope.md R5, R6); no step writes them. -/
  params : Params
  /-- WCUR[0], the store offset of channel 0's next sample (10_state.md R14). -/
  wcur0 : Word
  /-- WCUR[1], the store offset of channel 1's next sample (10_state.md R14). -/
  wcur1 : Word
  /-- RCUR, the store offset of the next byte READ copies (10_state.md R16). -/
  rcur : Word
  /-- WEND, one past the last readable byte (10_state.md R17). -/
  wend : Word
  /-- FAULT: CAUSE [3:0], OP [7:4], CH [11:8], the rest 0 (10_state.md R22). -/
  fault : Word
  /-- FAULT_ADDR (10_state.md R23). -/
  faultAddr : Word
  /-- STORE and the ghost map WRITTEN: the bytes written since power-on (10_state.md R18, R19; log 9). -/
  store : Memory
  /-- DEST, the consumer's memory: the bytes the ISB has written (20_memory.md R28, R36; log 10). -/
  dest : Memory
  /-- What the host offers, in the order the ISB takes it (20_memory.md R40; log 3). -/
  inputs : List HostInput
  /-- The words delivered on the response port, oldest first (30_encoding.md R47; log 11). -/
  responses : List Word
  /-- MODEL's own: how many draws have been taken, so that each is fresh (log 7). -/
  draws : Nat
deriving DecidableEq, Repr

/-- Right after power-on reset (10_state.md R27). The parameters, DEST, the two port lists and the draw counter
are the model's choices (log 1, 4, 7, 10, 11). -/
def State.reset : State :=
  { params := Config.resetParams
    wcur0 := 0, wcur1 := 2, rcur := 0, wend := 0
    fault := 0, faultAddr := 0
    store := [], dest := []
    inputs := [], responses := []
    draws := 0 }

end Sys2Proof.Machine
end

