-- ==== Sys2Proof/Machine/Flags.lean ====
section
/-! DEFINITION. The ISB has no flags (10_state.md R26). Its only status is the pair of fault registers: here are
the layout of FAULT, the cause codes and what the status outputs show. -/

namespace Sys2Proof.Machine

/-- CAUSE codes (60_exceptions.md R78). -/
def causeCode : Cause → BitVec 4
  | .illegalCommand => 1
  | .badChannel => 2
  | .badLength => 3
  | .writeOverflow => 4
  | .destBounds => 5

/-- What a fault of the transaction with command word `w` writes to FAULT: CH : OP : CAUSE, zero-extended; CH is
bits [19:16] of `w` whatever the opcode (60_exceptions.md R80; 10_state.md R22). -/
def faultWord (w : Word) (c : Cause) : Word :=
  (w.extractLsb' 16 4 ++ w.extractLsb' 28 4 ++ causeCode c).setWidth 32

/-- FAULT.CAUSE, bits [3:0] (10_state.md R22). -/
def State.faultCause (s : State) : BitVec 4 := s.fault.extractLsb' 0 4

/-- FAULT.OP, bits [7:4] (10_state.md R22). -/
def State.faultOp (s : State) : BitVec 4 := s.fault.extractLsb' 4 4

/-- FAULT.CH, bits [11:8] (10_state.md R22). -/
def State.faultCh (s : State) : BitVec 4 := s.fault.extractLsb' 8 4

/-- The ISB is halted when FAULT.CAUSE is not 0 (10_state.md R24). -/
def State.halted (s : State) : Bool := s.faultCause != 0

/-- The status outputs: FAULT and FAULT_ADDR, at all times, with no side effect (10_state.md R25). -/
def State.statusOutputs (s : State) : Word × Word := (s.fault, s.faultAddr)

end Sys2Proof.Machine
end

