-- ==== Sys2Proof/Machine/Operands.lean ====
section
/-! DEFINITION. What the operands of a command stand for: a channel, a binary32 sample of a block, a 16-bit
sample's two bytes. -/

namespace Sys2Proof.Machine

/-- The channel a CH field names: only 0 and 1 name one (30_encoding.md R46, R52). -/
def channelOf? (ch : BitVec 4) : Option Channel :=
  match ch.toNat with
  | 0 => some .ch0
  | 1 => some .ch1
  | _ => none

/-- The interleave offset of a channel, 2c; also its cursor's start value (20_memory.md R32; 10_state.md R14). -/
def channelOffset : Channel → Nat
  | .ch0 => 0
  | .ch1 => 2

/-- `Pack16`'s byte 0, bits [7:0] (20_memory.md R33). -/
def lowByte (v : Sample) : Byte := v.extractLsb' 0 8

/-- `Pack16`'s byte 1, bits [15:8] (20_memory.md R33). -/
def highByte (v : Sample) : Byte := v.extractLsb' 8 8

/-- What a binary32 pattern stands for (93 G1; PRESUMED, as the spec says itself: log 15). -/
inductive Binary32 where
  /-- Exponent all ones, fraction not 0. -/
  | nan
  /-- Exponent all ones, fraction 0. -/
  | infinity (negative : Bool)
  /-- A finite value, exactly: `scaled / 2 ^ 149`. -/
  | finite (scaled : Int)
deriving DecidableEq, Repr

/-- The sign, bit 31 (93 G1). -/
def binary32Sign (f : Word) : Bool := f.getLsbD 31

/-- The exponent field, bits [30:23], bias 127 (93 G1). -/
def binary32Exponent (f : Word) : Nat := (f.extractLsb' 23 8).toNat

/-- The fraction field, bits [22:0] (93 G1). -/
def binary32Fraction (f : Word) : Nat := (f.extractLsb' 0 23).toNat

/-- The magnitude of a finite pattern in units of 2^-149, the smallest subnormal, so that no value is rounded:
a subnormal is its fraction, a normal of exponent field `e` is (2^23 + fraction) * 2^(e - 1) (93 G1). -/
def binary32Magnitude (f : Word) : Nat :=
  if binary32Exponent f = 0 then binary32Fraction f
  else (2 ^ 23 + binary32Fraction f) * 2 ^ (binary32Exponent f - 1)

/-- Reading a binary32 pattern (30_encoding.md R49; 93 G1). -/
def readBinary32 (f : Word) : Binary32 :=
  if binary32Exponent f = 255 then
    if binary32Fraction f = 0 then .infinity (binary32Sign f) else .nan
  else .finite (if binary32Sign f then -(binary32Magnitude f : Int) else (binary32Magnitude f : Int))

/-- `trunc(Clamp(x))` for an extended real `x`, none for a NaN: first the clamp to the closed range
[-32767, 32767], then truncation toward zero (40_append.md R62, R63). -/
def clampTrunc : Binary32 → Option Int
  | .nan => none
  | .infinity negative => some (if negative then -32767 else 32767)
  | .finite scaled =>
    if 32767 * 2 ^ 149 < scaled then some 32767
    else if scaled < -(32767 * 2 ^ 149) then some (-32767)
    else some (scaled.tdiv (2 ^ 149))

/-- `ToSample(F)`, where `draws` draws have been taken; with it, how many have been taken after. A NaN gives a
FREE VALUE, a fresh draw of 16 bits (40_append.md R63, R64; log 7, log 8). -/
def toSample (draws : Nat) (f : Word) : Sample × Nat :=
  match clampTrunc (readBinary32 f) with
  | some y => (BitVec.ofInt 16 y, draws)
  | none => (Config.freeSample draws, draws + 1)

end Sys2Proof.Machine
end

