-- ==== Sys2Proof/Machine/Ops.lean ====
section
/-! DEFINITION. The named operations over the memories and the registers: reading and writing a byte, the draws,
the cursors, the response port, taking a fault, leaving the halted state, and what a step does besides running a
command. -/

namespace Sys2Proof.Machine

/-! ### Memories -/

/-- The byte at `a`, if it is listed. -/
def Memory.read : Memory → Nat → Option Byte
  | [], _ => none
  | (a', b) :: rest, a => if a = a' then some b else Memory.read rest a

/-- The byte at `a` becomes `b`; the addresses stay strictly rising. -/
def Memory.write : Memory → Nat → Byte → Memory
  | [], a, b => [(a, b)]
  | (a', b') :: rest, a, b =>
    if a < a' then (a, b) :: (a', b') :: rest
    else if a = a' then (a, b) :: rest
    else (a', b') :: Memory.write rest a b

/-- Every address of `m` is above `a`, and the addresses rise strictly from there. -/
def Memory.risesFrom (a : Nat) : Memory → Bool
  | [] => true
  | (a', _) :: rest => decide (a < a') && Memory.risesFrom a' rest

/-- The canonical form: addresses strictly rising. An unlisted address has no value, so no listed byte can
equal what it reads as. -/
def Memory.wf : Memory → Bool
  | [] => true
  | (a, _) :: rest => Memory.risesFrom a rest

/-- Every address of `m` is below `size`. -/
def Memory.within (size : Nat) : Memory → Bool
  | [] => true
  | (a, _) :: rest => decide (a < size) && Memory.within size rest

/-! ### The store and the destination memory -/

/-- WRITTEN[a]: some append has written STORE[a] since power-on (10_state.md R19). -/
def State.written (s : State) (a : Nat) : Bool := (s.store.read a).isSome

/-- `StoreWrite(a, b)` (20_memory.md R30). -/
def State.storeWrite (s : State) (a : Nat) (b : Byte) : State :=
  { s with store := s.store.write a b }

/-- `StoreRead(a)`: the byte written, or a FREE VALUE, a fresh draw, where none was (20_memory.md R31; log 7);
with it the state after, in which a draw taken is counted. -/
def State.storeRead (s : State) (a : Nat) : Byte × State :=
  match s.store.read a with
  | some b => (b, s)
  | none => (Config.freeByte s.draws, { s with draws := s.draws + 1 })

/-- `MemWrite(addr, 1, b)`, a byte of DEST (20_memory.md R36). -/
def State.memWrite (s : State) (a : Nat) (b : Byte) : State :=
  { s with dest := s.dest.write a b }

/-- `WriteSample(a, v)`: two bytes, low byte first (20_memory.md R33). -/
def State.writeSample (s : State) (a : Nat) (v : Sample) : State :=
  (s.storeWrite a (lowByte v)).storeWrite (a + 1) (highByte v)

/-- One sample of a block: converted, its draw counted, and written at `a` (40_append.md R60, R64). -/
def State.writeBlockSample (s : State) (a : Nat) (f : Word) : State :=
  State.writeSample { s with draws := (toSample s.draws f).2 } a (toSample s.draws f).1

/-- The loop of APPEND.B: the samples at `a`, `a + 4`, `a + 8`, … in order (40_append.md R60). -/
def State.writeBlock (s : State) (a : Nat) : List Word → State
  | [] => s
  | f :: rest => State.writeBlock (s.writeBlockSample a f) (a + 4) rest

/-- The loop of READ: `n` bytes of STORE from `src` to DEST from `dst`, in ascending order
(41_finalize_read.md R69; 20_memory.md R41). -/
def State.copyOut (s : State) (src dst : Nat) : Nat → State
  | 0 => s
  | n + 1 =>
    State.copyOut ((s.storeRead src).2.memWrite dst (s.storeRead src).1) (src + 1) (dst + 1) n

/-! ### The cursors and the ports -/

/-- WCUR[c] (10_state.md R14). -/
def State.wcur (s : State) : Channel → Word
  | .ch0 => s.wcur0
  | .ch1 => s.wcur1

/-- `WCUR[c] <- v`. -/
def State.setWcur (s : State) (c : Channel) (v : Word) : State :=
  { s with
    wcur0 := if c = .ch0 then v else s.wcur0
    wcur1 := if c = .ch1 then v else s.wcur1 }

/-- The start values of the four cursors (42_reset.md R75), which RESET and power-on reset share
(70_reset_and_hazards.md R91). -/
def State.startCursors (s : State) : State :=
  { s with
    wcur0 := BitVec.ofNat 32 (channelOffset .ch0)
    wcur1 := BitVec.ofNat 32 (channelOffset .ch1)
    rcur := 0
    wend := 0 }

/-- `BytesAvailable = WEND - RCUR` (10_state.md R21). It is never below 0 in a state that is reached; in others
it is taken as 0 there (DESIGN CHOICE, safe: log 14). -/
def State.bytesAvailable (s : State) : Nat := s.wend.toNat - s.rcur.toNat

/-- `CopyCount(maxCount)` (41_finalize_read.md R68). -/
def State.copyCount (s : State) (maxCount : Nat) : Nat :=
  if s.bytesAvailable < maxCount then s.bytesAvailable else maxCount - maxCount % 4

/-- `respond(w)`: the word is delivered on the response port (30_encoding.md R47; log 11). -/
def State.respond (s : State) (w : Word) : State :=
  { s with responses := s.responses ++ [w] }

/-! ### Taking a fault, and the way out of it -/

/-- `raise Fault(cause, addr)` in the transaction with command word `w`: FAULT and FAULT_ADDR are written,
nothing else changes, no word is delivered (60_exceptions.md R80, R81). -/
def State.raiseFault (s : State) (w : Word) (c : Cause) (addr : Word) : State :=
  { s with fault := faultWord w c, faultAddr := addr }

/-- Power-on reset, the only way out of the halted state (60_exceptions.md R85; 70_reset_and_hazards.md R91): the
cursors' start values, the fault registers 0, no store byte written. DEST, the ports and the draw counter stay
(log 18). -/
def State.powerOnReset (s : State) : State :=
  { s.startCursors with fault := 0, faultAddr := 0, store := [] }

/-- An ISB with the parameters `p` after power-on, beside a destination memory and what the host offers
(10_state.md R27; 70_reset_and_hazards.md R93). -/
def State.powerOn (p : Params) (dest : Memory) (inputs : List HostInput) : State :=
  { State.reset with params := p, dest := dest, inputs := inputs }

/-! ### What stands around the run of a command -/

/-- `k` for legal parameters; others are refused (92 D6; log 2). -/
def State.requireParams (s : State) (k : Host.Outcome State Fault Refusal) :
    Host.Outcome State Fault Refusal :=
  if s.params.legal then k else .refused .illegalParameters

/-- `k`, if the command port takes a transaction at all: a halted ISB takes none, and has no step
(60_exceptions.md R82; log 6). -/
def State.whenRunning (s : State) (k : Host.Outcome State Fault Refusal) :
    Host.Outcome State Fault Refusal :=
  s.requireParams (if s.halted then .fault .halted else k)

/-- A transaction that decodes to no command faults with the cause `c` and records no address
(60_exceptions.md R78, R80). -/
def rejectCommand (w : Word) (c : Cause) (s : State) : Host.Outcome State Fault Refusal :=
  s.whenRunning (.next (s.raiseFault w c 0))

/-- The power-on reset input (70_reset_and_hazards.md R91, R92). -/
def takePowerOnReset (s : State) : Host.Outcome State Fault Refusal :=
  s.requireParams (.next s.powerOnReset)

/-- No input is offered: the state survives (60_exceptions.md R90; DESIGN CHOICE, safe: log 5), unless the ISB is
halted and so has no step (R82). -/
def idle (s : State) : Host.Outcome State Fault Refusal :=
  s.whenRunning (.next s)

end Sys2Proof.Machine
end

