-- ==== Sys2Proof/Machine/Append.lean ====
section
/-! DEFINITION. The append commands (40_append.md). -/

namespace Sys2Proof.Machine

/-- APPEND.S (40_append.md R58): no clamp (R59); BAD_CHANNEL (30_encoding.md R52) before WRITE_OVERFLOW (R61;
60_exceptions.md R83). -/
def execAppendS (ch : BitVec 4) (value : Sample) (s : State) : Host.Outcome State Fault Refusal :=
  s.whenRunning <|
    match channelOf? ch with
    | none => .next (s.raiseFault (commandWord (.appendS ch value)) .badChannel 0)
    | some c =>
      if s.params.cap < (s.wcur c).toNat + 2 then
        .next (s.raiseFault (commandWord (.appendS ch value)) .writeOverflow (s.wcur c))
      else
        .next ((s.writeSample (s.wcur c).toNat value).setWcur c (s.wcur c + 4))

/-- APPEND.B (40_append.md R60): BAD_LENGTH for a term that is no block of 32 (30_encoding.md R53; log 13), then
BAD_CHANNEL, then WRITE_OVERFLOW before any write (R61). -/
def execAppendB (ch : BitVec 4) (samples : List Word) (s : State) :
    Host.Outcome State Fault Refusal :=
  s.whenRunning <|
    if samples.length ≠ 32 then
      .next (s.raiseFault (commandWord (.appendB ch samples)) .badLength 0)
    else
      match channelOf? ch with
      | none => .next (s.raiseFault (commandWord (.appendB ch samples)) .badChannel 0)
      | some c =>
        if s.params.cap < (s.wcur c).toNat + 126 then
          .next (s.raiseFault (commandWord (.appendB ch samples)) .writeOverflow (s.wcur c))
        else
          .next ((s.writeBlock (s.wcur c).toNat samples).setWcur c (s.wcur c + 128))

end Sys2Proof.Machine
end

