-- ==== Sys2Proof/Machine/Drain.lean ====
section
/-! DEFINITION. FINALIZE, READ and AVAIL (41_finalize_read.md). -/

namespace Sys2Proof.Machine

/-- FINALIZE (41_finalize_read.md R67): `WCUR[1]` is not read. -/
def execFinalize (s : State) : Host.Outcome State Fault Refusal :=
  s.whenRunning (.next { s with wend := s.wcur0, rcur := 0 })

/-- READ (41_finalize_read.md R69): the destination bound of the whole range is checked before any write
(R71). -/
def execRead (maxCount : BitVec 28) (destOff : Word) (s : State) :
    Host.Outcome State Fault Refusal :=
  s.whenRunning <|
    let n := s.copyCount maxCount.toNat
    if s.params.destSize < destOff.toNat + n then
      .next (s.raiseFault (commandWord (.read maxCount destOff)) .destBounds destOff)
    else
      .next (State.respond
        { s.copyOut s.rcur.toNat destOff.toNat n with rcur := s.rcur + BitVec.ofNat 32 n }
        (BitVec.ofNat 32 n))

/-- AVAIL (41_finalize_read.md R72). -/
def execAvail (s : State) : Host.Outcome State Fault Refusal :=
  s.whenRunning (.next (s.respond (BitVec.ofNat 32 s.bytesAvailable)))

end Sys2Proof.Machine
end

