-- ==== Sys2Proof/Machine/Reset.lean ====
section
/-! DEFINITION. The RESET command (42_reset.md). -/

namespace Sys2Proof.Machine

/-- RESET (42_reset.md R75): the four cursors and nothing else (R76). -/
def execReset (s : State) : Host.Outcome State Fault Refusal :=
  s.whenRunning (.next s.startCursors)

end Sys2Proof.Machine
end

