-- ==== Sys2Proof/Machine/Dispatch.lean ====
section
/-! DEFINITION. One arm for each command. -/

namespace Sys2Proof.Machine

def exec (i : Instr) (s : State) : Host.Outcome State Fault Refusal :=
  match i with
  | .appendS ch value => Sys2Proof.Machine.execAppendS ch value s
  | .appendB ch samples => Sys2Proof.Machine.execAppendB ch samples s
  | .finalize => Sys2Proof.Machine.execFinalize s
  | .read maxCount destOff => Sys2Proof.Machine.execRead maxCount destOff s
  | .reset => Sys2Proof.Machine.execReset s
  | .avail => Sys2Proof.Machine.execAvail s

end Sys2Proof.Machine
end

