-- ==== Sys2Proof/Machine/Step.lean ====
section
/-! DEFINITION. One step: the next thing the ISB takes from the host, decoded and run. -/

namespace Sys2Proof.Machine

/-- One step (20_memory.md R38, R40; 70_reset_and_hazards.md R92). A transaction is taken off the port and run,
or faults where it decodes to no command; a power-on reset is taken in any state; with nothing offered the ISB
idles. A halted ISB has no step but a power-on reset. -/
def step (s : State) : Host.Outcome State Fault Refusal :=
  match s.inputs with
  | [] => idle s
  | .powerOnReset :: rest => takePowerOnReset { s with inputs := rest }
  | .command w ops :: rest =>
    match decode w ops with
    | .ok i => exec i { s with inputs := rest }
    | .error c => rejectCommand w c { s with inputs := rest }

/-- The host offers the transaction with these bits, to be taken next (log 4). -/
def State.withFetchWord (s : State) (nbits w : Nat) : State :=
  { s with
    inputs :=
      .command (tableTransaction nbits w).1 (tableTransaction nbits w).2 :: s.inputs }

end Sys2Proof.Machine
end

