-- ==== Sys2Proof/Machine/Assembler.lean ====
section
/-! DEFINITION. The host's assembler: the operands a source line may have, the values it refuses, and the two
pseudo-instructions (30_encoding.md R56, R57). The characters of a line are not modelled (log 17). -/

namespace Sys2Proof.Machine

/-- The value of an APPEND.S line: a signed number, or a pattern written with 0x (30_encoding.md R56). -/
inductive AsmValue where
  | signed (v : Int)
  | pattern (p : Nat)
deriving DecidableEq, Repr

/-- A sample of an APPEND.B line: a 0x word, a decimal literal `digits / 10 ^ scale` with a sign
(30_encoding.md R56), or an infinity (written `+inf` in 95 P2; DEDUCED, safe: log 17). -/
inductive AsmSample where
  | word (w : Nat)
  | decimal (negative : Bool) (digits scale : Nat)
  | infinity (negative : Bool)
deriving DecidableEq, Repr

/-- A source line: the six commands and the two pseudo-instructions (30_encoding.md R56, R57). -/
inductive AsmLine where
  | appendS (ch : Nat) (value : AsmValue)
  | appendB (ch : Nat) (samples : List AsmSample)
  | finalize
  | read (maxCount destOff : Nat)
  | reset
  | avail
  | appendPair (v0 v1 : AsmValue)
  | drain (destOff : Nat)
deriving DecidableEq, Repr

/-- `n` as a field of `w` bits; a value that does not fit is refused (30_encoding.md R56). -/
def fitField (w n : Nat) : Option (BitVec w) :=
  if n < 2 ^ w then some (BitVec.ofNat w n) else none

/-- -32768 to 32767, or a 16-bit pattern; any other value is refused, never wrapped or clamped
(30_encoding.md R56; 93 U1). -/
def assembleValue : AsmValue → Option Sample
  | .signed v => if -32768 ≤ v ∧ v ≤ 32767 then some (BitVec.ofInt 16 v) else none
  | .pattern p => fitField 16 p

/-- `num / den` rounded to the nearest integer, a tie to the even one. -/
def roundHalfEven (num den : Nat) : Nat :=
  let q := num / den
  let r := num % den
  if 2 * r < den then q else if den < 2 * r then q + 1 else q + q % 2

/-- The magnitude bits of the binary32 pattern nearest to `num / den`, ties to even (30_encoding.md R56; 93 G1):
`k` is the binade, counted from the subnormals, and a mantissa that rounds up carries into the exponent. -/
def roundBinary32 (num den : Nat) : Nat :=
  let k := Nat.log2 (num * 2 ^ 149 / den) - 23
  k * 2 ^ 23 + roundHalfEven (num * 2 ^ 149) (den * 2 ^ k)

/-- A sample of a block as its binary32 word. A decimal that rounds beyond the largest finite value is refused: it
fits no finite pattern (DESIGN CHOICE, safe: log 17). -/
def assembleSample : AsmSample → Option Word
  | .word w => fitField 32 w
  | .decimal negative digits scale =>
    let m := roundBinary32 digits (10 ^ scale)
    if m < 0x7F800000 then
      some (BitVec.ofNat 32 (m + if negative then 0x80000000 else 0))
    else none
  | .infinity negative => some (if negative then 0xFF800000 else 0x7F800000)

/-- One line as the commands it stands for, or none where the assembler refuses it (30_encoding.md R56, R57).
Channel values 2 to 15 assemble, and fault when run (R52). -/
def assemble : AsmLine → Option (List Instr)
  | .appendS ch value => do
    let ch ← fitField 4 ch
    let v ← assembleValue value
    pure [.appendS ch v]
  | .appendB ch samples => do
    let ch ← fitField 4 ch
    let fs ← samples.mapM assembleSample
    if fs.length = 32 then pure [.appendB ch fs] else none
  | .finalize => some [.finalize]
  | .read maxCount destOff => do
    let m ← fitField 28 maxCount
    let d ← fitField 32 destOff
    pure [.read m d]
  | .reset => some [.reset]
  | .avail => some [.avail]
  | .appendPair v0 v1 => do
    let v0 ← assembleValue v0
    let v1 ← assembleValue v1
    pure [.appendS 0 v0, .appendS 1 v1]
  | .drain destOff => do
    let d ← fitField 32 destOff
    pure [.read 0x0FFFFFFF d]

end Sys2Proof.Machine
end

