-- ==== Sys2Proof/Safety.lean ====
section
/-! DEFINITION. The terms in which the statements about the machine are written: the invariant of every state
that is reached, the states that are reached, what the host can see, and the spec's own readings of a block
sample, of a transaction's fault and of a sequence of appends, written apart from the machine's definitions. -/

namespace Sys2Proof.Machine

/-- Legal parameters and no fault recorded: the states in which the command port takes a transaction
(00_scope.md R5, R6; 60_exceptions.md R82). -/
abbrev State.running (s : State) : Prop := s.params.legal = true ∧ s.halted = false

/-- What every state reached from power-on keeps: the ranges of 10_state.md R20, the canonical form and the
bounds of the two memories, that every slot behind a write cursor is written (20_memory.md R32), and the form of
the fault registers (10_state.md R22, R23). -/
structure State.Inv (s : State) : Prop where
  params_legal : s.params.legal = true
  store_wf : s.store.wf = true
  store_within : s.store.within s.params.cap = true
  dest_wf : s.dest.wf = true
  dest_within : s.dest.within s.params.destSize = true
  wcur0_aligned : s.wcur0.toNat % 4 = 0
  wcur0_le : s.wcur0.toNat ≤ s.params.cap
  wcur1_aligned : s.wcur1.toNat % 4 = 2
  wcur1_le : s.wcur1.toNat ≤ s.params.cap + 2
  wend_aligned : s.wend.toNat % 4 = 0
  wend_le : s.wend.toNat ≤ s.wcur0.toNat
  rcur_aligned : s.rcur.toNat % 4 = 0
  rcur_le : s.rcur.toNat ≤ s.wend.toNat
  slots0_written : ∀ a, a < s.wcur0.toNat → a % 4 < 2 → s.written a = true
  slots1_written : ∀ a, a < s.wcur1.toNat → 2 ≤ a % 4 → s.written a = true
  fault_form : s.fault = 0 ∧ s.faultAddr = 0 ∨
    (1 ≤ s.faultCause.toNat ∧ s.faultCause.toNat ≤ 5 ∧ s.fault.extractLsb' 12 20 = 0)

/-- The ranges of 10_state.md R20, as the rule lists them. -/
def State.CursorRanges (s : State) : Prop :=
  (s.wcur0.toNat % 4 = 0 ∧ s.wcur0.toNat ≤ s.params.cap) ∧
  (s.wcur1.toNat % 4 = 2 ∧ 2 ≤ s.wcur1.toNat ∧ s.wcur1.toNat ≤ s.params.cap + 2) ∧
  (s.wend.toNat % 4 = 0 ∧ s.wend.toNat ≤ s.params.cap) ∧
  (s.rcur.toNat % 4 = 0 ∧ s.rcur.toNat ≤ s.wend.toNat)

/-- The states that are reached: from power-on of an ISB with legal parameters, by steps, while the host may
change what it offers (20_memory.md R40) and the consumer may write its own memory (20_memory.md R28). -/
inductive Reachable : State → Prop where
  | powerOn (p : Params) (dest : Memory) (inputs : List HostInput) (hp : p.legal = true)
      (hwf : dest.wf = true) (hin : dest.within p.destSize = true) :
      Reachable (State.powerOn p dest inputs)
  | step {s t : State} (hs : Reachable s) (h : Machine.step s = .next t) : Reachable t
  | offer {s : State} (hs : Reachable s) (inputs : List HostInput) :
      Reachable { s with inputs := inputs }
  | consumer {s : State} (hs : Reachable s) (dest : Memory) (hwf : dest.wf = true)
      (hin : dest.within s.params.destSize = true) : Reachable { s with dest := dest }

/-- What the host can see of an ISB: the status outputs, its own destination memory and the words delivered to
it; the cursors and the store are not visible (10_state.md R25). -/
structure HostView where
  status : Word × Word
  dest : Memory
  responses : List Word
deriving DecidableEq, Repr

/-- The host's view of a state (10_state.md R25). -/
def State.hostView (s : State) : HostView :=
  { status := s.statusOutputs, dest := s.dest, responses := s.responses }

/-- The commands, one after another (20_memory.md R40). -/
def execAll : List Instr → State → Host.Outcome State Fault Refusal
  | [], s => .next s
  | i :: rest, s =>
    match exec i s with
    | .next t => execAll rest t
    | .fault r => .fault r
    | .refused r => .refused r

end Sys2Proof.Machine

namespace Sys2Proof.Safety

open Sys2Proof.Machine

/-- The value of a finite binary32 pattern, as IEEE 754 writes it (93 G1):
(-1)^sign * 1.fraction * 2^(e - 127), or 0.fraction * 2^-126 where the exponent field `e` is 0. -/
def binary32Value (f : Word) : ℚ :=
  let sign : ℚ := if f.getLsbD 31 then -1 else 1
  let e : Nat := (f.toNat / 2 ^ 23) % 256
  let frac : ℚ := ((f.toNat % 2 ^ 23 : Nat) : ℚ) / 2 ^ 23
  if e = 0 then sign * frac * 2 ^ (-126 : ℤ) else sign * (1 + frac) * 2 ^ ((e : ℤ) - 127)

/-- `Clamp(x)` (40_append.md R62). -/
def clamp (x : ℚ) : ℚ := if 32767 < x then 32767 else if x < -32767 then -32767 else x

/-- `trunc(x)`, the integer part of `x`, rounded toward zero (00_scope.md section 4). -/
def trunc (x : ℚ) : ℤ := if 0 ≤ x then ⌊x⌋ else ⌈x⌉

/-- A NaN: exponent field all ones, fraction not 0, either sign (40_append.md R64). -/
def isNaN (f : Word) : Bool := (f.toNat / 2 ^ 23) % 256 == 255 && f.toNat % 2 ^ 23 != 0

/-- `ToSample(F)` for a pattern that is not a NaN (40_append.md R63), over the rationals. -/
def sampleOf (f : Word) : Sample :=
  if (f.toNat / 2 ^ 23) % 256 = 255 then
    (if f.getLsbD 31 then BitVec.ofInt 16 (-32767) else BitVec.ofInt 16 32767)
  else BitVec.ofInt 16 (trunc (clamp (binary32Value f)))

/-- OP as a number (30_encoding.md R44). -/
def opOf (w : Word) : Nat := w.toNat / 2 ^ 28

/-- The CH field as a number (30_encoding.md R49). -/
def chOf (w : Word) : Nat := (w.toNat / 2 ^ 16) % 16

/-- The command word names no command: OP reserved, or a reserved field not 0 (30_encoding.md R50, R51). -/
def illegalWord (w : Word) : Bool :=
  if opOf w = 1 then (w.toNat / 2 ^ 20) % 2 ^ 8 != 0
  else if opOf w = 2 then (w.toNat / 2 ^ 20) % 2 ^ 8 != 0 || w.toNat % 2 ^ 16 != 0
  else if opOf w = 4 then false
  else if opOf w = 3 ∨ opOf w = 5 ∨ opOf w = 6 then w.toNat % 2 ^ 28 != 0
  else true

/-- The operand words an opcode takes (30_encoding.md R45). -/
def operandsNeeded (w : Word) : Nat := if opOf w = 2 then 32 else if opOf w = 4 then 1 else 0

/-- The cursor an append of channel index `ch` writes at (10_state.md R14). -/
def cursorOf (s : State) (ch : Nat) : Word := if ch = 0 then s.wcur0 else s.wcur1

/-- `CopyCount` as 41_finalize_read.md R70 gives it: the smaller of the rounded count and what is left. -/
def copyCountOf (s : State) (maxCount : Nat) : Nat :=
  min (maxCount - maxCount % 4) (s.wend.toNat - s.rcur.toNat)

/-- The fault a transaction meets: the FIRST of the conditions of 60_exceptions.md R79 in the order of R83, with
what FAULT_ADDR records (R78); none where it meets none. -/
def expectedFault (s : State) (w : Word) (ops : List Word) : Option (Cause × Word) :=
  if illegalWord w then some (.illegalCommand, 0)
  else if ops.length ≠ operandsNeeded w then some (.badLength, 0)
  else if (opOf w = 1 ∨ opOf w = 2) ∧ 2 ≤ chOf w then some (.badChannel, 0)
  else if opOf w = 1 ∧ s.params.cap < (cursorOf s (chOf w)).toNat + 2 then
    some (.writeOverflow, cursorOf s (chOf w))
  else if opOf w = 2 ∧ s.params.cap < (cursorOf s (chOf w)).toNat + 126 then
    some (.writeOverflow, cursorOf s (chOf w))
  else if opOf w = 4 ∧
      s.params.destSize < (ops.headD 0).toNat + copyCountOf s (w.toNat % 2 ^ 28) then
    some (.destBounds, ops.headD 0)
  else none

/-- FAULT after a fault with the cause code `code`: CAUSE in bits [3:0], OP in [7:4], CH in [11:8], 0 above
(10_state.md R22). -/
def faultNumber (w : Word) (code : Nat) : Nat := code + 16 * opOf w + 256 * chOf w

/-- The code of a cause, from the table of 60_exceptions.md R78. -/
def codeNumber : Cause → Nat
  | .illegalCommand => 1
  | .badChannel => 2
  | .badLength => 3
  | .writeOverflow => 4
  | .destBounds => 5

/-- The CH field of a channel (30_encoding.md R46). -/
def channelNumber : Channel → BitVec 4
  | .ch0 => 0
  | .ch1 => 1

/-- The start value of a channel's cursor and its interleave offset, 2c (10_state.md R14; 20_memory.md R32). -/
def channelStart : Channel → Nat
  | .ch0 => 0
  | .ch1 => 2

/-- What a block sample puts into its slot: none stands for the draw of a NaN, any pattern
(40_append.md R63, R64). -/
def slotOf (f : Word) : Option Sample := if isNaN f then none else some (sampleOf f)

/-- What an append puts into the slots of channel `c`, in order (20_memory.md R32; 40_append.md R58, R60). -/
def slotsOf (c : Channel) : Instr → List (Option Sample)
  | .appendS ch v => if ch = channelNumber c then [some v] else []
  | .appendB ch fs => if ch = channelNumber c then fs.map slotOf else []
  | .finalize | .read _ _ | .reset | .avail => []

/-- What a sequence of appends puts into channel `c`'s slots (20_memory.md R32). -/
def allSlots (c : Channel) (is : List Instr) : List (Option Sample) := is.flatMap (slotsOf c)

/-- An append on channel 0 or 1, a block of 32 samples where it is a block. -/
def isAppend : Instr → Prop
  | .appendS ch _ => ch.toNat < 2
  | .appendB ch fs => ch.toNat < 2 ∧ fs.length = 32
  | .finalize | .read _ _ | .reset | .avail => False

/-- The two bytes at `a` and `a + 1` hold the sample, low byte first; where it is a draw, they are written
(20_memory.md R32, R33). -/
def holdsSample (m : Memory) (a : Nat) : Option Sample → Prop
  | some v => m.read a = some (v.setWidth 8) ∧ m.read (a + 1) = some ((v >>> 8).setWidth 8)
  | none => (m.read a).isSome = true ∧ (m.read (a + 1)).isSome = true

/-- The state after a transaction with command word `w` faulted: FAULT and FAULT_ADDR as 60_exceptions.md R78 and
R80 give them, nothing else changed. -/
def faulted (s : State) (w : Word) (c : Cause) (addr : Word) : State :=
  { s with fault := BitVec.ofNat 32 (faultNumber w (codeNumber c)), faultAddr := addr }

end Sys2Proof.Safety
end

