-- ==== Sys2Proof/Certificates/Slice0/Obligations.lean ====
section
/-! DEFINITION. The statements about the ISB. Each docstring names the rule it formalises. -/

open Sys2Proof Sys2Proof.Machine Sys2Proof.Safety

/-! ### Encoding -/

/-- Every well-formed command, with every value of every operand, is read back from its encoding
(30_encoding.md R46, R48, R49). -/
def Obligations.DecodeEncode : Prop :=
  ∀ i : Instr, i.wellFormed = true → decode (encode i).1 (encode i).2 = .ok i

/-- A transaction that decodes is the encoding of the command it decodes to: no bit and no operand word is
ignored (30_encoding.md R51, R53, R54). -/
def Obligations.EncodeDecode : Prop :=
  ∀ (w : Word) (ops : List Word) (i : Instr), decode w ops = .ok i →
    encode i = (w, ops) ∧ i.wellFormed = true

/-- The MODEL's division of the checks (log 12): `decode` answers a command exactly when the word selects a row of
the match and mask table of 30_encoding.md R48 and the operand count is the row's. The channel check, which R55
makes last in its Decode, is not in `decode`: the append makes it first (`Obligations.BadChannelFaults`). -/
def Obligations.DecodeSelectsTableRow : Prop :=
  ∀ (w : Word) (ops : List Word),
    (∃ i, decode w ops = .ok i) ↔
      ∃ r ∈ encodingRows, w &&& r.mask = r.pattern ∧ ops.length = r.operands

/-- Words written out from the patterns of 30_encoding.md R48, one for each command. -/
def Obligations.DecodeWrittenWords : Prop :=
  decode 0b00010000000000010111111111111111 [] = .ok (.appendS 1 0x7FFF) ∧
  decode 0b00100000000000010000000000000000 (List.replicate 32 0x43800000) =
    .ok (.appendB 1 (List.replicate 32 0x43800000)) ∧
  decode 0b00110000000000000000000000000000 [] = .ok .finalize ∧
  decode 0b01001010101111000000000000000100 [9] = .ok (.read 0xABC0004 9) ∧
  decode 0b01010000000000000000000000000000 [] = .ok .reset ∧
  decode 0b01100000000000000000000000000000 [] = .ok .avail

/-! ### A step -/

/-- When the next input is a transaction that decodes to a well-formed command, a step takes it off the port and
is that command's meaning. -/
def Obligations.StepRunsDecoded : Prop :=
  ∀ (s : State) (w : Word) (ops : List Word) (rest : List HostInput) (i : Instr),
    s.inputs = .command w ops :: rest → decode w ops = .ok i →
    i.wellFormed = true ∧ step s = exec i { s with inputs := rest }

/-- Every transaction an ISB takes while not halted completes in one step (70_reset_and_hazards.md R104). -/
def Obligations.EveryTransactionCompletes : Prop :=
  ∀ (s : State) (w : Word) (ops : List Word) (rest : List HostInput),
    s.running → s.inputs = .command w ops :: rest →
    ∃ t, step s = .next t ∧ t.inputs = rest

/-- The MODEL's choice (log 5): with no input offered an ISB that is not halted stays as it is. -/
def Obligations.IdleKeepsState : Prop :=
  ∀ s : State, s.running → s.inputs = [] → step s = .next s

/-- The MODEL's reading (log 2; 92 D6): parameters outside 00_scope.md R5 and R6 are refused, by every command and
every step. -/
def Obligations.IllegalParametersRefused : Prop :=
  ∀ s : State,
    ¬ (4 ≤ s.params.cap ∧ s.params.cap ≤ 2 ^ 27 ∧ s.params.cap % 4 = 0 ∧
      s.params.destSize ≤ 2 ^ 32) →
    (∀ i, exec i s = .refused .illegalParameters) ∧ step s = .refused .illegalParameters

/-- No step changes CAP or DEST_SIZE, and the count of draws never goes back. -/
def Obligations.ParametersNeverChange : Prop :=
  ∀ s t : State, step s = .next t → t.params = s.params ∧ s.draws ≤ t.draws

/-! ### Faults -/

/-- 30_encoding.md R50. -/
def Obligations.ReservedOpcodeFaults : Prop :=
  ∀ (s : State) (w : Word) (ops : List Word) (rest : List HostInput),
    s.running → s.inputs = .command w ops :: rest → opOf w = 0 ∨ 7 ≤ opOf w →
    (∀ i, decode w ops ≠ .ok i) ∧
    step s = .next (faulted { s with inputs := rest } w .illegalCommand 0)

/-- 30_encoding.md R51: a nonzero reserved field; READ has none. -/
def Obligations.ReservedFieldFaults : Prop :=
  ∀ (s : State) (w : Word) (ops : List Word) (rest : List HostInput),
    s.running → s.inputs = .command w ops :: rest →
    ((opOf w = 1 ∧ (w.toNat / 2 ^ 20) % 2 ^ 8 ≠ 0) ∨
      (opOf w = 2 ∧ ((w.toNat / 2 ^ 20) % 2 ^ 8 ≠ 0 ∨ w.toNat % 2 ^ 16 ≠ 0)) ∨
      ((opOf w = 3 ∨ opOf w = 5 ∨ opOf w = 6) ∧ w.toNat % 2 ^ 28 ≠ 0) →
      step s = .next (faulted { s with inputs := rest } w .illegalCommand 0)) ∧
    (opOf w = 4 → ∀ destOff, ops = [destOff] → ∃ i, decode w ops = .ok i)

/-- 30_encoding.md R53. -/
def Obligations.WrongOperandCountFaults : Prop :=
  ∀ (s : State) (w : Word) (ops : List Word) (rest : List HostInput),
    s.running → s.inputs = .command w ops :: rest → illegalWord w = false →
    ops.length ≠ operandsNeeded w →
    step s = .next (faulted { s with inputs := rest } w .badLength 0)

/-- 30_encoding.md R52: the word is well-formed, and the step that takes it faults BAD_CHANNEL. That `decode` itself
answers the append, where R55's Decode returns the fault, is the MODEL's division of the checks (log 12). -/
def Obligations.BadChannelFaults : Prop :=
  ∀ (s : State) (w : Word) (ops : List Word) (rest : List HostInput),
    s.running → s.inputs = .command w ops :: rest → opOf w = 1 ∨ opOf w = 2 →
    illegalWord w = false → ops.length = operandsNeeded w → 2 ≤ chOf w →
    (∃ i, decode w ops = .ok i ∧ i.wellFormed = true) ∧
    step s = .next (faulted { s with inputs := rest } w .badChannel 0)

/-- 40_append.md R61: an append whose last byte would lie at or past CAP writes nothing; FAULT_ADDR records the
cursor. The command word in FAULT is the append's own encoding. -/
def Obligations.AppendPastCapFaults : Prop :=
  ∀ (s : State) (c : Channel), s.running →
    (∀ v, s.params.cap < (s.wcur c).toNat + 2 →
      exec (.appendS (channelNumber c) v) s =
        .next (faulted s (encode (.appendS (channelNumber c) v)).1 .writeOverflow (s.wcur c))) ∧
    (∀ fs, fs.length = 32 → s.params.cap < (s.wcur c).toNat + 126 →
      exec (.appendB (channelNumber c) fs) s =
        .next (faulted s (encode (.appendB (channelNumber c) fs)).1 .writeOverflow (s.wcur c)))

/-- 41_finalize_read.md R71: the destination bound is checked before any byte is written; FAULT_ADDR records the
destination offset; a count of 0 faults only past DEST_SIZE. -/
def Obligations.ReadPastDestFaults : Prop :=
  ∀ (s : State) (m : BitVec 28) (d : Word), s.running →
    (s.params.destSize < d.toNat + s.copyCount m.toNat →
      exec (.read m d) s = .next (faulted s (encode (.read m d)).1 .destBounds d)) ∧
    (s.copyCount m.toNat = 0 →
      ((∃ t, exec (.read m d) s = .next t ∧ t.halted = true) ↔ s.params.destSize < d.toNat))

/-- The first fault in the order of 60_exceptions.md R83, with the code and the address of R78, is the one a
transaction reports, and nothing but the fault registers changes; where it meets none, no fault is recorded. -/
def Obligations.TransactionReportsFirstFault : Prop :=
  ∀ (s : State) (w : Word) (ops : List Word) (rest : List HostInput),
    s.Inv → s.halted = false → s.inputs = .command w ops :: rest →
    match expectedFault s w ops with
    | some (c, addr) => step s = .next (faulted { s with inputs := rest } w c addr)
    | none => ∃ t, step s = .next t ∧ t.fault = s.fault ∧ t.faultAddr = s.faultAddr

/-- 60_exceptions.md R81: a step that leaves the ISB halted changed nothing but FAULT and FAULT_ADDR. -/
def Obligations.FaultsArePrecise : Prop :=
  ∀ s t : State, s.running → step s = .next t → t.halted = true →
    ∃ w ops rest, s.inputs = .command w ops :: rest ∧
      t = { s with inputs := rest, fault := t.fault, faultAddr := t.faultAddr }

/-- 60_exceptions.md R82: a halted ISB takes no command, RESET included, and has no step; the status outputs show
the fault; only a power-on reset leaves the halted state. -/
def Obligations.HaltedTakesNothing : Prop :=
  ∀ s : State, s.params.legal = true → s.fault.toNat % 16 ≠ 0 →
    s.halted = true ∧
    (∀ i, exec i s = .fault .halted) ∧
    (s.inputs.head? ≠ some .powerOnReset → step s = .fault .halted) ∧
    s.statusOutputs = (s.fault, s.faultAddr) ∧
    (s.inputs.head? = some .powerOnReset →
      ∃ t, step s = .next t ∧ t.halted = false)

/-- The spec's own inference in 60_exceptions.md section 4, "Faults do not nest": a step that changes FAULT or
FAULT_ADDR starts from a state that is not halted, or is a power-on reset. -/
def Obligations.FirstFaultIsKept : Prop :=
  ∀ s t : State, step s = .next t → t.fault ≠ s.fault ∨ t.faultAddr ≠ s.faultAddr →
    s.halted = false ∨ s.inputs.head? = some .powerOnReset

/-! ### Power-on reset -/

/-- 70_reset_and_hazards.md R91: the registers, no store byte written, not halted, DEST as it was. -/
def Obligations.PowerOnResetEffect : Prop :=
  ∀ (s : State) (rest : List HostInput),
    s.params.legal = true → s.inputs = .powerOnReset :: rest →
    ∃ t, step s = .next t ∧
      t.wcur0 = 0 ∧ t.wcur1 = 2 ∧ t.rcur = 0 ∧ t.wend = 0 ∧ t.fault = 0 ∧ t.faultAddr = 0 ∧
      (∀ a, t.written a = false) ∧ t.halted = false ∧ t.dest = s.dest

/-- The MODEL's reading of what a power-on reset leaves on the other sides of the ports (log 18): it takes one
input and keeps the parameters, the words delivered and the count of draws. -/
def Obligations.PowerOnResetKeepsThePorts : Prop :=
  ∀ (s t : State) (rest : List HostInput),
    s.inputs = .powerOnReset :: rest → step s = .next t →
    t.params = s.params ∧ t.inputs = rest ∧ t.responses = s.responses ∧ t.draws = s.draws

/-- 10_state.md R27, for every pair of parameters, every destination memory and every input. -/
def Obligations.PowerOnState : Prop :=
  ∀ (p : Params) (dest : Memory) (inputs : List HostInput),
    (State.powerOn p dest inputs).wcur0 = 0 ∧ (State.powerOn p dest inputs).wcur1 = 2 ∧
    (State.powerOn p dest inputs).rcur = 0 ∧ (State.powerOn p dest inputs).wend = 0 ∧
    (State.powerOn p dest inputs).fault = 0 ∧ (State.powerOn p dest inputs).faultAddr = 0 ∧
    ∀ a, (State.powerOn p dest inputs).written a = false

/-- The MODEL's `State.reset` (log 1, 4, 10): the power-on state of an ISB with the sizes of log 1, nothing offered
and nothing known of DEST; the invariant holds of it. -/
def Obligations.ResetIsPowerOn : Prop :=
  State.reset = State.powerOn Config.resetParams [] [] ∧ State.reset.Inv

/-! ### Append commands -/

/-- Encoding, effect and frame of APPEND.S (40_append.md section 1). The decode clause answers the append for CH 2 to
15 too: the MODEL's division of the checks (log 12), the append itself raising BAD_CHANNEL. -/
def Obligations.AppendSEffect : Prop :=
  (∀ (w : Word) (ops : List Word), opOf w = 1 →
    decode w ops =
      if (w.toNat / 2 ^ 20) % 2 ^ 8 ≠ 0 then .error .illegalCommand
      else if ops ≠ [] then .error .badLength
      else .ok (.appendS (BitVec.ofNat 4 (chOf w)) (BitVec.ofNat 16 (w.toNat % 2 ^ 16)))) ∧
  ∀ (s : State) (c : Channel) (v : Sample),
    s.running → (s.wcur c).toNat + 2 ≤ s.params.cap →
    ∃ t, exec (.appendS (channelNumber c) v) s = .next t ∧
      t = { s with wcur0 := t.wcur0, wcur1 := t.wcur1, store := t.store } ∧
      (t.wcur c).toNat = (s.wcur c).toNat + 4 ∧
      (∀ d, d ≠ c → t.wcur d = s.wcur d) ∧
      holdsSample t.store (s.wcur c).toNat (some v) ∧
      (∀ x, x ≠ (s.wcur c).toNat → x ≠ (s.wcur c).toNat + 1 →
        t.store.read x = s.store.read x)

/-- Encoding, effect and frame of APPEND.B (40_append.md section 2); the slot of a NaN is written, with any pattern.
The decode clause answers the append for CH 2 to 15 too: the MODEL's division of the checks (log 12), the append
itself raising BAD_CHANNEL. -/
def Obligations.AppendBEffect : Prop :=
  (∀ (w : Word) (ops : List Word), opOf w = 2 →
    decode w ops =
      if (w.toNat / 2 ^ 20) % 2 ^ 8 ≠ 0 ∨ w.toNat % 2 ^ 16 ≠ 0 then .error .illegalCommand
      else if ops.length ≠ 32 then .error .badLength
      else .ok (.appendB (BitVec.ofNat 4 (chOf w)) ops)) ∧
  ∀ (s : State) (c : Channel) (fs : List Word),
    s.running → fs.length = 32 → (s.wcur c).toNat + 126 ≤ s.params.cap →
    ∃ t, exec (.appendB (channelNumber c) fs) s = .next t ∧
      t = { s with wcur0 := t.wcur0, wcur1 := t.wcur1, store := t.store, draws := t.draws } ∧
      (t.wcur c).toNat = (s.wcur c).toNat + 128 ∧
      (∀ d, d ≠ c → t.wcur d = s.wcur d) ∧
      (∀ k (hk : k < fs.length),
        holdsSample t.store ((s.wcur c).toNat + 4 * k) (slotOf fs[k])) ∧
      (∀ x, (∀ k, k < 32 → x ≠ (s.wcur c).toNat + 4 * k ∧ x ≠ (s.wcur c).toNat + 4 * k + 1) →
        t.store.read x = s.store.read x)

/-- 30_encoding.md R53 for a term that is no block of 32 samples (log 13): the meaning itself faults BAD_LENGTH. -/
def Obligations.ShortBlockFaults : Prop :=
  ∀ (s : State) (ch : BitVec 4) (fs : List Word),
    s.running → (Instr.appendB ch fs).wellFormed = false →
    exec (.appendB ch fs) s = .next (faulted s (encode (.appendB ch fs)).1 .badLength 0)

/-- 40_append.md R66: what an append changes. Where it faults, the fault registers alone; else its own cursor, and
store bytes and WRITTEN bits of its own channel's slots, 1 or 32 of them, at offsets 2 × ch (mod 4) and the next
byte. -/
def Obligations.AppendTouchesOwnSlotsOnly : Prop :=
  ∀ (s t : State) (c : Channel) (i : Instr), s.Inv →
    ((∃ v, i = .appendS (channelNumber c) v) ∨ ∃ fs, i = .appendB (channelNumber c) fs) →
    exec i s = .next t →
    (t.halted = true ∧ t = { s with fault := t.fault, faultAddr := t.faultAddr }) ∨
    (t = { s with wcur0 := t.wcur0, wcur1 := t.wcur1, store := t.store, draws := t.draws } ∧
      (∀ d, d ≠ c → t.wcur d = s.wcur d) ∧
      ∀ x, t.store.read x ≠ s.store.read x ∨ t.written x ≠ s.written x →
        (x % 4 = channelStart c ∨ x % 4 = channelStart c + 1) ∧
        ∃ k, k < (allSlots c [i]).length ∧
          (x = (s.wcur c).toNat + 4 * k ∨ x = (s.wcur c).toNat + 4 * k + 1))

/-- 40_append.md R63: `ToSample` of a pattern that is not a NaN takes no draw and is `trunc(Clamp(x))` of its
value, an infinity being clamped; the result is an integer from -32767 to 32767, in two's complement. -/
def Obligations.ToSampleIsClampThenTruncate : Prop :=
  ∀ (d : Nat) (f : Word), isNaN f = false →
    toSample d f = (sampleOf f, d) ∧
    -32767 ≤ (sampleOf f).toInt ∧ (sampleOf f).toInt ≤ 32767

/-- The spec's own inference in 40_append.md section 4, "truncating first and clamping second gives the same result
for every finite x". -/
def Obligations.TruncateThenClampAgrees : Prop :=
  ∀ (d : Nat) (f : Word), (f.toNat / 2 ^ 23) % 256 ≠ 255 →
    ((toSample d f).1.toInt : ℚ) = clamp (trunc (binary32Value f))

/-- The MODEL's draw (log 7) for the NaN of 40_append.md section 4, whatever its sign and fraction: the free value
`Config.freeSample` of the count of draws, which goes up by one. -/
def Obligations.ToSampleOfNaNIsDraw : Prop :=
  ∀ (d : Nat) (f : Word), isNaN f = true → toSample d f = (Config.freeSample d, d + 1)

/-- The spec's own inference in 20_memory.md section 3, "channel c's k-th sample ... occupies store bytes 4k + 2c and
4k + 2c + 1", after any sequence of single and block appends from the cursors' start values; and that of
40_append.md section 3, each channel takes CAP / 4 samples without a fault. -/
def Obligations.AppendsInterleave : Prop :=
  ∀ (s : State) (is : List Instr), s.running → s.wcur0 = 0 → s.wcur1 = 2 →
    (∀ i ∈ is, isAppend i) → (∀ c, (allSlots c is).length ≤ s.params.frames) →
    ∃ t, execAll is s = .next t ∧ t.running ∧
      ∀ c, (t.wcur c).toNat = 4 * (allSlots c is).length + channelStart c ∧
        ∀ k x, (allSlots c is)[k]? = some x → holdsSample t.store (4 * k + channelStart c) x

/-! ### FINALIZE, READ, AVAIL -/

/-- 41_finalize_read.md R67: encoding and effect of FINALIZE, and that everything else is unchanged. -/
def Obligations.FinalizeEffect : Prop :=
  (∀ (w : Word) (ops : List Word), opOf w = 3 →
    decode w ops =
      if w ≠ 0x30000000 then .error .illegalCommand
      else if ops ≠ [] then .error .badLength else .ok .finalize) ∧
  ∀ s : State, s.running → exec .finalize s = .next { s with wend := s.wcur0, rcur := 0 }

/-- The copy count of 41_finalize_read.md section 2, and the spec's own inference there, "Properties of the copy
count", in every state with the invariant. -/
def Obligations.CopyCountProperties : Prop :=
  ∀ (s : State) (m : Nat),
    (s.copyCount m =
      if m > s.wend.toNat - s.rcur.toNat then s.wend.toNat - s.rcur.toNat else m - m % 4) ∧
    (s.Inv →
      s.copyCount m = min (m - m % 4) (s.wend.toNat - s.rcur.toNat) ∧
      s.copyCount m % 4 = 0 ∧
      s.copyCount m ≤ s.wend.toNat - s.rcur.toNat ∧
      s.copyCount m ≤ m)

/-- 41_finalize_read.md R69: encoding, effect and frame of READ; a byte never written is delivered as some byte. -/
def Obligations.ReadEffect : Prop :=
  (∀ (w : Word) (ops : List Word), opOf w = 4 →
    decode w ops =
      match ops with
      | [d] => .ok (.read (BitVec.ofNat 28 (w.toNat % 2 ^ 28)) d)
      | _ => .error .badLength) ∧
  ∀ (s : State) (m : BitVec 28) (d : Word) (n : Nat),
    s.running → n = s.copyCount m.toNat → d.toNat + n ≤ s.params.destSize →
    ∃ t, exec (.read m d) s = .next t ∧
      t = { s with rcur := t.rcur, dest := t.dest, responses := t.responses, draws := t.draws } ∧
      t.rcur.toNat = s.rcur.toNat + n ∧
      t.responses = s.responses ++ [BitVec.ofNat 32 n] ∧
      (∀ i, i < n → ∃ b, t.dest.read (d.toNat + i) = some b ∧
        ∀ v, s.store.read (s.rcur.toNat + i) = some v → b = v) ∧
      (∀ x, x < d.toNat ∨ d.toNat + n ≤ x → t.dest.read x = s.dest.read x)

/-- 41_finalize_read.md R72: encoding and effect of AVAIL, and that nothing but the response port changes. -/
def Obligations.AvailEffect : Prop :=
  (∀ (w : Word) (ops : List Word), opOf w = 6 →
    decode w ops =
      if w ≠ 0x60000000 then .error .illegalCommand
      else if ops ≠ [] then .error .badLength else .ok .avail) ∧
  ∀ s : State, s.running → s.rcur.toNat ≤ s.wend.toNat →
    exec .avail s = .next { s with responses := s.responses ++ [s.wend - s.rcur] }

/-- The spec's own inference in 41_finalize_read.md section 4, "A sequence of READs ... copies the store bytes ... in
order, each byte once": what two READs in a row deliver is what one READ of both counts delivers. -/
def Obligations.ReadsInPartsDeliverTheSame : Prop :=
  ∀ (s : State) (m1 m2 : BitVec 28) (d1 d2 : Word) (n1 n2 : Nat),
    s.Inv → s.halted = false → n1 = s.copyCount m1.toNat →
    n2 = State.copyCount { s with rcur := s.rcur + BitVec.ofNat 32 n1 } m2.toNat →
    d2.toNat = d1.toNat + n1 → d1.toNat + n1 + n2 ≤ s.params.destSize →
    ∃ t1 t2 t3,
      exec (.read m1 d1) s = .next t1 ∧ exec (.read m2 d2) t1 = .next t2 ∧
      exec (.read (BitVec.ofNat 28 (n1 + n2)) d1) s = .next t3 ∧
      t2 = { t3 with responses := t2.responses } ∧
      t3.responses = s.responses ++ [BitVec.ofNat 32 (n1 + n2)] ∧
      t2.responses = s.responses ++ [BitVec.ofNat 32 n1, BitVec.ofNat 32 n2]

/-- StoreRead (20_memory.md section 2): a written byte is returned as written and nothing changes; a byte never
written is the MODEL's draw (log 7), the free value `Config.freeByte` of the count of draws, which goes up by one. -/
def Obligations.StoreReadValue : Prop :=
  ∀ (s : State) (a : Nat),
    (∀ b, s.store.read a = some b → s.storeRead a = (b, s)) ∧
    (s.written a = false →
      s.storeRead a = (Config.freeByte s.draws, { s with draws := s.draws + 1 }))

/-- The spec's own inference in 70_reset_and_hazards.md section 4, "every frame below WEND is complete", where channel
1 is not behind WEND: a READ takes no draw and delivers the store's bytes. -/
def Obligations.CompleteFramesAreDelivered : Prop :=
  ∀ (s : State) (m : BitVec 28) (d : Word) (n : Nat),
    s.Inv → s.halted = false → s.wend.toNat + 2 ≤ s.wcur1.toNat → n = s.copyCount m.toNat →
    d.toNat + n ≤ s.params.destSize →
    ∃ t, exec (.read m d) s = .next t ∧ t.draws = s.draws ∧
      ∀ i, i < n → (∃ b, s.store.read (s.rcur.toNat + i) = some b) ∧
        t.dest.read (d.toNat + i) = s.store.read (s.rcur.toNat + i)

/-- The MODEL's counter (log 7): a READ counts one draw for each byte of its range never written, an APPEND.B one for
each NaN, so that no two draws are the same one. -/
def Obligations.DrawsAreCounted : Prop :=
  (∀ (s t : State) (m : BitVec 28) (d : Word), exec (.read m d) s = .next t → t.halted = false →
    t.draws = s.draws +
      (List.range (s.copyCount m.toNat)).countP fun i => !s.written (s.rcur.toNat + i)) ∧
  ∀ (s t : State) (ch : BitVec 4) (fs : List Word),
    exec (.appendB ch fs) s = .next t → t.halted = false → t.draws = s.draws + fs.countP isNaN

/-! ### RESET -/

/-- 42_reset.md R75 and R76: encoding and effect of RESET; the store, the fault registers and everything else are
unchanged. -/
def Obligations.ResetEffect : Prop :=
  (∀ (w : Word) (ops : List Word), opOf w = 5 →
    decode w ops =
      if w ≠ 0x50000000 then .error .illegalCommand
      else if ops ≠ [] then .error .badLength else .ok .reset) ∧
  ∀ s : State, s.running →
    exec .reset s = .next { s with rcur := 0, wend := 0, wcur0 := 0, wcur1 := 2 }

/-! ### Rules about the whole machine -/

/-- The invariant holds at power-on, for every legal pair of parameters. -/
def Obligations.InvariantAtPowerOn : Prop :=
  ∀ (p : Params) (dest : Memory) (inputs : List HostInput),
    p.legal = true → dest.wf = true → dest.within p.destSize = true →
    (State.powerOn p dest inputs).Inv

/-- Every step keeps the invariant: the ranges of 10_state.md section 4, the canonical form and the bounds of the two
memories, the slots behind the cursors written, the form of the fault registers. -/
def Obligations.StepKeepsInvariant : Prop :=
  ∀ s t : State, s.Inv → step s = .next t → t.Inv

/-- The spec's own inference in 10_state.md section 4, the ranges the cursors keep in every state reached from
power-on, whatever the host offers; a difference WEND - RCUR is a multiple of 4. -/
def Obligations.CursorRangesWhenReached : Prop :=
  ∀ s : State, Reachable s →
    s.CursorRanges ∧ (s.wend.toNat - s.rcur.toNat) % 4 = 0

/-- 10_state.md R15: the three ways a write cursor changes. -/
def Obligations.WriteCursorChanges : Prop :=
  ∀ (i : Instr) (s t : State) (c : Channel), exec i s = .next t → t.wcur c ≠ s.wcur c →
    ((∃ v, i = .appendS (channelNumber c) v) ∧ (t.wcur c).toNat = (s.wcur c).toNat + 4) ∨
    ((∃ fs, i = .appendB (channelNumber c) fs) ∧ (t.wcur c).toNat = (s.wcur c).toNat + 128) ∨
    (i = .reset ∧ (t.wcur c).toNat = channelStart c)

/-- 10_state.md R16: FINALIZE and RESET set RCUR to 0, READ adds what it copied, no other command writes it. -/
def Obligations.ReadCursorChanges : Prop :=
  ∀ (i : Instr) (s t : State), exec i s = .next t →
    match i with
    | .finalize | .reset => t.rcur = 0
    | .read m _ =>
      t.rcur.toNat = s.rcur.toNat + if t.halted then 0 else s.copyCount m.toNat
    | .appendS _ _ | .appendB _ _ | .avail => t.rcur = s.rcur

/-- 10_state.md R17: FINALIZE sets WEND to WCUR[0], RESET to 0, no other command writes it. -/
def Obligations.WriteEndChanges : Prop :=
  ∀ (i : Instr) (s t : State), exec i s = .next t →
    match i with
    | .finalize => t.wend = s.wcur0
    | .reset => t.wend = 0
    | .appendS _ _ | .appendB _ _ | .read _ _ | .avail => t.wend = s.wend

/-- 10_state.md section 3 and 20_memory.md section 1: only an append changes a store byte, and only at its channel's cursor or
a byte index from it inside one sample or one block; a power-on reset alone forgets bytes. -/
def Obligations.StoreChangedByAppendsOnly : Prop :=
  ∀ (s t : State) (x : Nat), step s = .next t → t.store.read x ≠ s.store.read x →
    s.inputs.head? = some .powerOnReset ∨
    ∃ w ops c, s.inputs.head? = some (.command w ops) ∧
      ((∃ v, decode w ops = .ok (.appendS (channelNumber c) v) ∧
          (x = (s.wcur c).toNat ∨ x = (s.wcur c).toNat + 1)) ∨
        (∃ fs, decode w ops = .ok (.appendB (channelNumber c) fs) ∧
          ∃ k, k < 32 ∧ (x = (s.wcur c).toNat + 4 * k ∨ x = (s.wcur c).toNat + 4 * k + 1)))

/-- 20_memory.md sections 1 and 6: only READ writes the destination memory, only in its range, and never past
DEST_SIZE. -/
def Obligations.DestChangedByReadOnly : Prop :=
  ∀ (s t : State) (x : Nat), step s = .next t → t.dest.read x ≠ s.dest.read x →
    x < s.params.destSize ∧
    ∃ w ops m d, s.inputs.head? = some (.command w ops) ∧ decode w ops = .ok (.read m d) ∧
      d.toNat ≤ x ∧ x < d.toNat + s.copyCount m.toNat

/-- 30_encoding.md R47: one response word for a READ and for an AVAIL, none for the other commands, none for a
transaction that faults. -/
def Obligations.ResponsesOfCommands : Prop :=
  ∀ (i : Instr) (s t : State), s.rcur.toNat ≤ s.wend.toNat → exec i s = .next t →
    t.responses = s.responses ++
      if t.halted then [] else
        match i with
        | .read m _ => [BitVec.ofNat 32 (s.copyCount m.toNat)]
        | .avail => [s.wend - s.rcur]
        | .appendS _ _ | .appendB _ _ | .finalize | .reset => []

/-- What the host sees of a step, and everything else but the store, does not depend on the store outside
`[RCUR, WEND)`: READ never delivers a byte at or past WEND (10_state.md R17, R25; 41_finalize_read.md R70). -/
def Obligations.UnreadableBytesStayHidden : Prop :=
  ∀ (s s' : State) (m : Memory),
    (∀ a, s.rcur.toNat ≤ a → a < s.wend.toNat → m.read a = s.store.read a) →
    step s = .next s' →
    ∃ t', step { s with store := m } = .next t' ∧
      t'.hostView = s'.hostView ∧ t' = { s' with store := t'.store }

/-! ### The assembler -/

/-- 30_encoding.md section 7 and 93 U1: an APPEND.S line assembles exactly for a channel of 4 bits and a value of 16
bits, to the value's two's complement pattern, and is refused otherwise, never wrapped or clamped. -/
def Obligations.AssembleAppendS : Prop :=
  ∀ (ch : Nat),
    (∀ v : Int, assemble (.appendS ch (.signed v)) =
      if ch ≤ 15 ∧ -32768 ≤ v ∧ v ≤ 32767 then
        some [.appendS (BitVec.ofNat 4 ch) (BitVec.ofInt 16 v)] else none) ∧
    (∀ p : Nat, assemble (.appendS ch (.pattern p)) =
      if ch ≤ 15 ∧ p ≤ 0xFFFF then
        some [.appendS (BitVec.ofNat 4 ch) (BitVec.ofNat 16 p)] else none)

/-- 30_encoding.md section 7: DRAIN assembles to `READ 0x0FFFFFFF, destOff`, exactly for an offset of 32 bits, and
that READ delivers every available byte to DEST from `destOff`; APPEND.PAIR assembles to the two appends of one
frame, exactly where both values do, each in either form. -/
def Obligations.PseudoInstructions : Prop :=
  (∀ n : Nat, assemble (.drain n) =
    if n < 2 ^ 32 then some [.read 0x0FFFFFFF (BitVec.ofNat 32 n)] else none) ∧
  (∀ (s : State) (d : Word) (n : Nat), s.Inv → s.halted = false →
    n = s.wend.toNat - s.rcur.toNat → d.toNat + n ≤ s.params.destSize →
    assemble (.drain d.toNat) = some [.read 0x0FFFFFFF d] ∧
    ∃ t, exec (.read 0x0FFFFFFF d) s = .next t ∧
      t = { s with rcur := s.wend, dest := t.dest, responses := t.responses, draws := t.draws } ∧
      t.responses = s.responses ++ [s.wend - s.rcur] ∧
      (∀ i, i < n → ∃ b, t.dest.read (d.toNat + i) = some b ∧
        ∀ v, s.store.read (s.rcur.toNat + i) = some v → b = v) ∧
      (∀ x, x < d.toNat ∨ d.toNat + n ≤ x → t.dest.read x = s.dest.read x)) ∧
  (∀ v0 v1 : AsmValue, assemble (.appendPair v0 v1) =
    match assemble (.appendS 0 v0), assemble (.appendS 1 v1) with
    | some a, some b => some (a ++ b)
    | _, _ => none) ∧
  (∀ v0 v1 : Int, -32768 ≤ v0 → v0 ≤ 32767 → -32768 ≤ v1 → v1 ≤ 32767 →
    assemble (.appendPair (.signed v0) (.signed v1)) =
      some [.appendS 0 (BitVec.ofInt 16 v0), .appendS 1 (BitVec.ofInt 16 v1)]) ∧
  ∀ p0 p1 : Nat, p0 ≤ 0xFFFF → p1 ≤ 0xFFFF →
    assemble (.appendPair (.pattern p0) (.pattern p1)) =
      some [.appendS 0 (BitVec.ofNat 16 p0), .appendS 1 (BitVec.ofNat 16 p1)]

/-- 30_encoding.md section 7, decimal literals "rounded to nearest-even": the pattern that the literal
`±digits / 10 ^ scale` assembles to is finite, has the literal's sign, and no finite pattern's value lies nearer; of
two values equally near, the one with the even pattern. The MODEL's choice (log 17): the literal is refused exactly
from (2^25 - 1) * 2^103 on, where the nearest-even rounding exceeds the largest finite value. -/
def Obligations.AssembleRoundsToNearestEven : Prop :=
  ∀ (negative : Bool) (digits scale : Nat) (x : ℚ),
    x = (if negative then -1 else 1) * ((digits : ℚ) / 10 ^ scale) →
    (∀ f : Word, assembleSample (.decimal negative digits scale) = some f →
      (f.toNat / 2 ^ 23) % 256 ≠ 255 ∧ f.getLsbD 31 = negative ∧
      ∀ g : Word, (g.toNat / 2 ^ 23) % 256 ≠ 255 →
        |binary32Value f - x| ≤ |binary32Value g - x| ∧
        (|binary32Value f - x| = |binary32Value g - x| → binary32Value f ≠ binary32Value g →
          f.toNat % 2 = 0)) ∧
    (assembleSample (.decimal negative digits scale) = none ↔
      (2 ^ 25 - 1) * 2 ^ 103 ≤ (digits : ℚ) / 10 ^ scale)

/-- The MODEL's rounding of decimal literals (30_encoding.md R56; log 17) gives the exact value of a finite
binary32 pattern back as that pattern. -/
def Obligations.AssembleExactValues : Prop :=
  ∀ (f : Word), (f.toNat / 2 ^ 23) % 256 ≠ 255 →
    roundBinary32 (binary32Magnitude f) (2 ^ 149) = f.toNat % 2 ^ 31
end

