-- ==== Sys2Proof/Laws/Assembler.lean ====
section
/-! SUPPORT. What the assembler's shared operations can answer. -/

namespace Sys2Proof.Machine

/-- A field takes exactly the values that fit it. -/
theorem fitField_eq_some {w n : Nat} {x : BitVec w} :
    fitField w n = some x ↔ n < 2 ^ w ∧ x = BitVec.ofNat w n := by
  unfold fitField
  split <;> simp_all [eq_comm]

theorem fitField_eq_none {w n : Nat} : fitField w n = none ↔ 2 ^ w ≤ n := by
  unfold fitField
  split <;> simp_all

/-- An operand word that fits is itself. -/
@[simp] theorem fitField_toNat {w : Nat} (x : BitVec w) : fitField w x.toNat = some x :=
  fitField_eq_some.mpr ⟨x.isLt, by simp⟩

/-- A signed value assembles exactly from -32768 to 32767 (30_encoding.md R56). -/
theorem assembleValue_signed_eq_some {v : Int} {x : Sample} :
    assembleValue (.signed v) = some x ↔ (-32768 ≤ v ∧ v ≤ 32767) ∧ x = BitVec.ofInt 16 v := by
  simp only [assembleValue]
  split <;> simp_all [eq_comm]

/-- `roundHalfEven` is within half a unit of the fraction, and even where it is half a unit away. -/
theorem roundHalfEven_spec (num den : Nat) (h : 0 < den) :
    2 * num ≤ 2 * (den * roundHalfEven num den) + den ∧
    2 * (den * roundHalfEven num den) ≤ 2 * num + den ∧
    (2 * num = 2 * (den * roundHalfEven num den) + den ∨
        2 * (den * roundHalfEven num den) = 2 * num + den →
      roundHalfEven num den % 2 = 0) := by
  have hd := Nat.div_add_mod num den
  have hr := Nat.mod_lt num h
  unfold roundHalfEven
  generalize num / den = q at *
  generalize num % den = r at *
  subst hd
  dsimp only
  split
  · omega
  · have : den * (q + 1) = den * q + den := rfl
    split
    · omega
    · rcases Nat.mod_two_eq_zero_or_one q with hq | hq <;> rw [hq] <;>
        simp only [Nat.add_zero, this] <;> omega

/-- Rounding does not leave an integer bound. -/
theorem roundHalfEven_le {num den n : Nat} (h : 0 < den) (hn : num ≤ den * n) :
    roundHalfEven num den ≤ n := by
  obtain ⟨-, h2, h3⟩ := roundHalfEven_spec num den h
  by_contra hc
  have := Nat.mul_le_mul_left den (Nat.lt_of_not_le hc)
  have he : den * n.succ = den * n + den := rfl
  omega

end Sys2Proof.Machine
end

