-- ==== Sys2Proof/Laws/Decode.lean ====
section
/-! SUPPORT. The fields of a command word as numbers, and what FAULT holds after a fault as a number. -/

namespace Sys2Proof.Machine

open Sys2Proof.Safety

theorem opField_toNat (w : Word) : (opField w).toNat = opOf w := by
  have := w.isLt
  simp only [opField, opOf, BitVec.extractLsb'_toNat, Nat.shiftRight_eq_div_pow]
  omega

theorem reservedHigh_toNat (w : Word) : (reservedHigh w).toNat = (w.toNat / 2 ^ 20) % 2 ^ 8 := by
  simp only [reservedHigh, BitVec.extractLsb'_toNat, Nat.shiftRight_eq_div_pow]

theorem chField_toNat (w : Word) : (chField w).toNat = chOf w := by
  simp only [chField, chOf, BitVec.extractLsb'_toNat, Nat.shiftRight_eq_div_pow]

theorem valueField_toNat (w : Word) : (valueField w).toNat = w.toNat % 2 ^ 16 := by
  simp [valueField, BitVec.extractLsb'_toNat]

theorem maxCountField_toNat (w : Word) : (maxCountField w).toNat = w.toNat % 2 ^ 28 := by
  simp [maxCountField, BitVec.extractLsb'_toNat]

theorem reservedHigh_eq_zero (w : Word) :
    reservedHigh w = 0 ↔ (w.toNat / 2 ^ 20) % 2 ^ 8 = 0 := by
  rw [← BitVec.toNat_inj, reservedHigh_toNat]; rfl

theorem valueField_eq_zero (w : Word) : valueField w = 0 ↔ w.toNat % 2 ^ 16 = 0 := by
  rw [← BitVec.toNat_inj, valueField_toNat]; rfl

theorem maxCountField_eq_zero (w : Word) : maxCountField w = 0 ↔ w.toNat % 2 ^ 28 = 0 := by
  rw [← BitVec.toNat_inj, maxCountField_toNat]; rfl

theorem opOf_lt (w : Word) : opOf w < 16 := by
  have := w.isLt
  simp only [opOf]
  omega

theorem chOf_lt (w : Word) : chOf w < 16 := Nat.mod_lt _ (by decide)

theorem causeCode_toNat (c : Cause) : (causeCode c).toNat = codeNumber c := by cases c <;> rfl

theorem codeNumber_pos (c : Cause) : 1 ≤ codeNumber c ∧ codeNumber c ≤ 5 := by
  cases c <;> decide

/-- A concatenation as a number, the first part in the more significant bits (00_scope.md section 4). -/
theorem toNat_append_eq {m n : Nat} (x : BitVec m) (y : BitVec n) :
    (x ++ y).toNat = x.toNat * 2 ^ n + y.toNat := by
  rw [BitVec.toNat_append, ← Nat.shiftLeft_add_eq_or_of_lt y.isLt, Nat.shiftLeft_eq]

theorem commandWord_appendS_toNat (ch : BitVec 4) (v : Sample) :
    (commandWord (.appendS ch v)).toNat = 1 * 2 ^ 28 + ch.toNat * 2 ^ 16 + v.toNat := by
  simp only [commandWord, toNat_append_eq]
  simp
  omega

theorem commandWord_appendB_toNat (ch : BitVec 4) (fs : List Word) :
    (commandWord (.appendB ch fs)).toNat = 2 * 2 ^ 28 + ch.toNat * 2 ^ 16 := by
  simp only [commandWord, toNat_append_eq]
  simp
  omega

theorem commandWord_read_toNat (m : BitVec 28) (d : Word) :
    (commandWord (.read m d)).toNat = 4 * 2 ^ 28 + m.toNat := by
  simp only [commandWord, toNat_append_eq]
  simp

/-- FAULT after a fault, as a number. -/
theorem faultWord_toNat (w : Word) (c : Cause) :
    (faultWord w c).toNat = faultNumber w (codeNumber c) := by
  have h1 := opOf_lt w
  have h2 := chOf_lt w
  have h3 := codeNumber_pos c
  have e1 : (w.extractLsb' 28 4).toNat = opOf w := opField_toNat w
  have e2 : (w.extractLsb' 16 4).toNat = chOf w := chField_toNat w
  simp only [faultWord, BitVec.toNat_setWidth, toNat_append_eq, e1, e2, causeCode_toNat,
    faultNumber]
  omega

theorem faultNumber_lt (w : Word) (c : Cause) : faultNumber w (codeNumber c) < 2 ^ 12 := by
  have h1 := opOf_lt w
  have h2 := chOf_lt w
  have h3 := codeNumber_pos c
  simp only [faultNumber]
  omega

theorem faultWord_eq (w : Word) (c : Cause) :
    faultWord w c = BitVec.ofNat 32 (faultNumber w (codeNumber c)) := by
  have := faultNumber_lt w c
  rw [← BitVec.toNat_inj, faultWord_toNat, BitVec.toNat_ofNat, Nat.mod_eq_of_lt (by omega)]

theorem raiseFault_eq_faulted (s : State) (w : Word) (c : Cause) (addr : Word) :
    s.raiseFault w c addr = faulted s w c addr := by
  simp [State.raiseFault, faulted, faultWord_eq]

/-- A recorded fault halts the ISB (60_exceptions.md R82). -/
@[simp] theorem raiseFault_halted (s : State) (w : Word) (c : Cause) (addr : Word) :
    (s.raiseFault w c addr).halted = true := by
  have h : ((faultWord w c).extractLsb' 0 4).toNat = codeNumber c := by
    simp only [BitVec.extractLsb'_toNat, faultWord_toNat, faultNumber, Nat.shiftRight_zero]
    have := codeNumber_pos c
    omega
  have hp := codeNumber_pos c
  simp only [State.halted, State.faultCause, State.raiseFault, bne_iff_ne, ne_eq]
  intro h0
  rw [h0] at h
  simp at h
  omega

end Sys2Proof.Machine
end

