-- ==== Sys2Proof/Laws/Memory.lean ====
section
/-! SUPPORT. A memory: what a read after a write gives, and that a write keeps the canonical form and the bound. -/

namespace Sys2Proof.Machine

@[simp] theorem Memory.read_nil (a : Nat) : Memory.read [] a = none := rfl

@[simp] theorem Memory.read_cons (a' : Nat) (b : Byte) (rest : Memory) (a : Nat) :
    Memory.read ((a', b) :: rest) a = if a = a' then some b else Memory.read rest a := rfl

@[simp] theorem Memory.read_write_same (m : Memory) (a : Nat) (b : Byte) :
    (m.write a b).read a = some b := by
  induction m with
  | nil => simp [Memory.write]
  | cons cell rest ih =>
    obtain ⟨a', b'⟩ := cell
    unfold Memory.write
    split
    · simp
    · split
      · simp
      · rename_i h; simp [h, ih]

theorem Memory.read_write_other (m : Memory) {a x : Nat} (b : Byte) (h : x ≠ a) :
    (m.write a b).read x = m.read x := by
  induction m with
  | nil => simp [Memory.write, h]
  | cons cell rest ih =>
    obtain ⟨a', b'⟩ := cell
    unfold Memory.write
    split
    · simp [h]
    · split
      · rename_i h'; subst h'; simp [h]
      · simp [ih]

/-- What a byte reads as after a write of one byte. -/
theorem Memory.read_write (m : Memory) (a x : Nat) (b : Byte) :
    (m.write a b).read x = if x = a then some b else m.read x := by
  split
  · rename_i h; subst h; simp
  · rename_i h; exact m.read_write_other b h

theorem Memory.risesFrom_write (m : Memory) {low a : Nat} (b : Byte) (hlow : low < a)
    (h : m.risesFrom low = true) : (m.write a b).risesFrom low = true := by
  induction m generalizing low with
  | nil => simp [Memory.write, Memory.risesFrom, hlow]
  | cons cell rest ih =>
    obtain ⟨a', b'⟩ := cell
    simp only [Memory.risesFrom, Bool.and_eq_true, decide_eq_true_eq] at h
    unfold Memory.write
    split
    · rename_i h'; simp [Memory.risesFrom, hlow, h', h.2]
    · split
      · rename_i h'; subst h'; simp [Memory.risesFrom, hlow, h.2]
      · rename_i h1 h2
        have : a' < a := by omega
        simp [Memory.risesFrom, h.1, ih this h.2]

/-- A write keeps the canonical form. -/
theorem Memory.wf_write (m : Memory) (a : Nat) (b : Byte) (h : m.wf = true) :
    (m.write a b).wf = true := by
  cases m with
  | nil => rfl
  | cons cell rest =>
    obtain ⟨a', b'⟩ := cell
    simp only [Memory.wf] at h
    unfold Memory.write
    split
    · rename_i h'; simp [Memory.wf, Memory.risesFrom, h', h]
    · split
      · rename_i h'; subst h'; simpa [Memory.wf] using h
      · rename_i h1 h2
        have : a' < a := by omega
        simpa [Memory.wf] using Memory.risesFrom_write rest b this h

/-- A write below the size of a memory keeps its addresses below it. -/
theorem Memory.within_write (m : Memory) {size a : Nat} (b : Byte) (ha : a < size)
    (h : m.within size = true) : (m.write a b).within size = true := by
  induction m with
  | nil => simp [Memory.write, Memory.within, ha]
  | cons cell rest ih =>
    obtain ⟨a', b'⟩ := cell
    simp only [Memory.within, Bool.and_eq_true, decide_eq_true_eq] at h
    unfold Memory.write
    split
    · simp [Memory.within, ha, h]
    · split
      · simp [Memory.within, ha, h.2]
      · simp [Memory.within, h.1, ih h.2]

/-- Nothing is listed at or past the size of a memory. -/
theorem Memory.read_of_within {m : Memory} {size a : Nat} (h : m.within size = true)
    (ha : size ≤ a) : m.read a = none := by
  induction m with
  | nil => rfl
  | cons cell rest ih =>
    obtain ⟨a', b'⟩ := cell
    simp only [Memory.within, Bool.and_eq_true, decide_eq_true_eq] at h
    have : a ≠ a' := by omega
    simp [this, ih h.2]

/-- Nothing is listed at or below the address a memory rises from. -/
theorem Memory.read_of_risesFrom {m : Memory} {low a : Nat} (h : m.risesFrom low = true)
    (ha : a ≤ low) : m.read a = none := by
  induction m generalizing low with
  | nil => rfl
  | cons cell rest ih =>
    obtain ⟨a', b'⟩ := cell
    simp only [Memory.risesFrom, Bool.and_eq_true, decide_eq_true_eq] at h
    have : a ≠ a' := by omega
    simp [this, ih h.2 (by omega)]

theorem Memory.wf_of_risesFrom {m : Memory} {low : Nat} (h : m.risesFrom low = true) :
    m.wf = true := by
  cases m with
  | nil => rfl
  | cons cell rest =>
    simp only [Memory.risesFrom, Bool.and_eq_true, decide_eq_true_eq] at h
    exact h.2

/-- The form is canonical: two memories that have it and read alike are equal data. -/
theorem Memory.eq_of_read_eq {m n : Memory} (hm : m.wf = true) (hn : n.wf = true)
    (h : ∀ a, m.read a = n.read a) : m = n := by
  induction m generalizing n with
  | nil =>
    cases n with
    | nil => rfl
    | cons cell rest =>
      obtain ⟨a, b⟩ := cell
      have := h a
      simp at this
  | cons cell rest ih =>
    obtain ⟨a, b⟩ := cell
    cases n with
    | nil => have := h a; simp at this
    | cons cell' rest' =>
      obtain ⟨a', b'⟩ := cell'
      have ha := h a
      have ha' := h a'
      simp only [Memory.wf] at hm hn
      have hlt : ¬ a < a' := by
        intro hlt
        have hne : a ≠ a' := by omega
        simp [hne, Memory.read_of_risesFrom hn (Nat.le_of_lt hlt)] at ha
      have hgt : ¬ a' < a := by
        intro hgt
        have hne : a' ≠ a := by omega
        simp [hne, Memory.read_of_risesFrom hm (Nat.le_of_lt hgt)] at ha'
      have haa : a = a' := by omega
      subst haa
      simp only [Memory.read_cons, if_true, Option.some.injEq] at ha
      subst ha
      have hrest : rest = rest' := by
        refine ih (Memory.wf_of_risesFrom hm) (Memory.wf_of_risesFrom hn) fun x => ?_
        have hx := h x
        simp only [Memory.read_cons] at hx
        by_cases hxa : x = a
        · subst hxa
          rw [Memory.read_of_risesFrom hm (Nat.le_refl x),
            Memory.read_of_risesFrom hn (Nat.le_refl x)]
        · simpa [hxa] using hx
      rw [hrest]

end Sys2Proof.Machine
end

