-- ==== Sys2Proof/Laws/State.lean ====
section
/-! SUPPORT. One lemma per field per update of the state, so that no proof unfolds a record update. -/

namespace Sys2Proof.Machine

/-! ### storeWrite -/

@[simp] theorem State.storeWrite_params (s : State) (a : Nat) (b : Byte) :
    (s.storeWrite a b).params = s.params := rfl
@[simp] theorem State.storeWrite_wcur0 (s : State) (a : Nat) (b : Byte) :
    (s.storeWrite a b).wcur0 = s.wcur0 := rfl
@[simp] theorem State.storeWrite_wcur1 (s : State) (a : Nat) (b : Byte) :
    (s.storeWrite a b).wcur1 = s.wcur1 := rfl
@[simp] theorem State.storeWrite_rcur (s : State) (a : Nat) (b : Byte) :
    (s.storeWrite a b).rcur = s.rcur := rfl
@[simp] theorem State.storeWrite_wend (s : State) (a : Nat) (b : Byte) :
    (s.storeWrite a b).wend = s.wend := rfl
@[simp] theorem State.storeWrite_fault (s : State) (a : Nat) (b : Byte) :
    (s.storeWrite a b).fault = s.fault := rfl
@[simp] theorem State.storeWrite_faultAddr (s : State) (a : Nat) (b : Byte) :
    (s.storeWrite a b).faultAddr = s.faultAddr := rfl
@[simp] theorem State.storeWrite_store (s : State) (a : Nat) (b : Byte) :
    (s.storeWrite a b).store = s.store.write a b := rfl
@[simp] theorem State.storeWrite_dest (s : State) (a : Nat) (b : Byte) :
    (s.storeWrite a b).dest = s.dest := rfl
@[simp] theorem State.storeWrite_inputs (s : State) (a : Nat) (b : Byte) :
    (s.storeWrite a b).inputs = s.inputs := rfl
@[simp] theorem State.storeWrite_responses (s : State) (a : Nat) (b : Byte) :
    (s.storeWrite a b).responses = s.responses := rfl
@[simp] theorem State.storeWrite_draws (s : State) (a : Nat) (b : Byte) :
    (s.storeWrite a b).draws = s.draws := rfl
@[simp] theorem State.storeWrite_halted (s : State) (a : Nat) (b : Byte) :
    (s.storeWrite a b).halted = s.halted := rfl
@[simp] theorem State.storeWrite_wcur (s : State) (a : Nat) (b : Byte) (d : Channel) :
    (s.storeWrite a b).wcur d = s.wcur d := by cases d <;> rfl

/-! ### memWrite -/

@[simp] theorem State.memWrite_params (s : State) (a : Nat) (b : Byte) :
    (s.memWrite a b).params = s.params := rfl
@[simp] theorem State.memWrite_wcur0 (s : State) (a : Nat) (b : Byte) :
    (s.memWrite a b).wcur0 = s.wcur0 := rfl
@[simp] theorem State.memWrite_wcur1 (s : State) (a : Nat) (b : Byte) :
    (s.memWrite a b).wcur1 = s.wcur1 := rfl
@[simp] theorem State.memWrite_rcur (s : State) (a : Nat) (b : Byte) :
    (s.memWrite a b).rcur = s.rcur := rfl
@[simp] theorem State.memWrite_wend (s : State) (a : Nat) (b : Byte) :
    (s.memWrite a b).wend = s.wend := rfl
@[simp] theorem State.memWrite_fault (s : State) (a : Nat) (b : Byte) :
    (s.memWrite a b).fault = s.fault := rfl
@[simp] theorem State.memWrite_faultAddr (s : State) (a : Nat) (b : Byte) :
    (s.memWrite a b).faultAddr = s.faultAddr := rfl
@[simp] theorem State.memWrite_store (s : State) (a : Nat) (b : Byte) :
    (s.memWrite a b).store = s.store := rfl
@[simp] theorem State.memWrite_dest (s : State) (a : Nat) (b : Byte) :
    (s.memWrite a b).dest = s.dest.write a b := rfl
@[simp] theorem State.memWrite_inputs (s : State) (a : Nat) (b : Byte) :
    (s.memWrite a b).inputs = s.inputs := rfl
@[simp] theorem State.memWrite_responses (s : State) (a : Nat) (b : Byte) :
    (s.memWrite a b).responses = s.responses := rfl
@[simp] theorem State.memWrite_draws (s : State) (a : Nat) (b : Byte) :
    (s.memWrite a b).draws = s.draws := rfl
@[simp] theorem State.memWrite_halted (s : State) (a : Nat) (b : Byte) :
    (s.memWrite a b).halted = s.halted := rfl
@[simp] theorem State.memWrite_wcur (s : State) (a : Nat) (b : Byte) (d : Channel) :
    (s.memWrite a b).wcur d = s.wcur d := by cases d <;> rfl

/-! ### writeSample -/

@[simp] theorem State.writeSample_params (s : State) (a : Nat) (v : Sample) :
    (s.writeSample a v).params = s.params := rfl
@[simp] theorem State.writeSample_wcur0 (s : State) (a : Nat) (v : Sample) :
    (s.writeSample a v).wcur0 = s.wcur0 := rfl
@[simp] theorem State.writeSample_wcur1 (s : State) (a : Nat) (v : Sample) :
    (s.writeSample a v).wcur1 = s.wcur1 := rfl
@[simp] theorem State.writeSample_rcur (s : State) (a : Nat) (v : Sample) :
    (s.writeSample a v).rcur = s.rcur := rfl
@[simp] theorem State.writeSample_wend (s : State) (a : Nat) (v : Sample) :
    (s.writeSample a v).wend = s.wend := rfl
@[simp] theorem State.writeSample_fault (s : State) (a : Nat) (v : Sample) :
    (s.writeSample a v).fault = s.fault := rfl
@[simp] theorem State.writeSample_faultAddr (s : State) (a : Nat) (v : Sample) :
    (s.writeSample a v).faultAddr = s.faultAddr := rfl
@[simp] theorem State.writeSample_store (s : State) (a : Nat) (v : Sample) :
    (s.writeSample a v).store = (s.store.write a (lowByte v)).write (a + 1) (highByte v) := rfl
@[simp] theorem State.writeSample_dest (s : State) (a : Nat) (v : Sample) :
    (s.writeSample a v).dest = s.dest := rfl
@[simp] theorem State.writeSample_inputs (s : State) (a : Nat) (v : Sample) :
    (s.writeSample a v).inputs = s.inputs := rfl
@[simp] theorem State.writeSample_responses (s : State) (a : Nat) (v : Sample) :
    (s.writeSample a v).responses = s.responses := rfl
@[simp] theorem State.writeSample_draws (s : State) (a : Nat) (v : Sample) :
    (s.writeSample a v).draws = s.draws := rfl
@[simp] theorem State.writeSample_halted (s : State) (a : Nat) (v : Sample) :
    (s.writeSample a v).halted = s.halted := rfl
@[simp] theorem State.writeSample_wcur (s : State) (a : Nat) (v : Sample) (d : Channel) :
    (s.writeSample a v).wcur d = s.wcur d := by cases d <;> rfl

/-! ### setWcur -/

@[simp] theorem State.setWcur_params (s : State) (c : Channel) (v : Word) :
    (s.setWcur c v).params = s.params := rfl
@[simp] theorem State.setWcur_wcur0 (s : State) (c : Channel) (v : Word) :
    (s.setWcur c v).wcur0 = if c = .ch0 then v else s.wcur0 := rfl
@[simp] theorem State.setWcur_wcur1 (s : State) (c : Channel) (v : Word) :
    (s.setWcur c v).wcur1 = if c = .ch1 then v else s.wcur1 := rfl
@[simp] theorem State.setWcur_rcur (s : State) (c : Channel) (v : Word) :
    (s.setWcur c v).rcur = s.rcur := rfl
@[simp] theorem State.setWcur_wend (s : State) (c : Channel) (v : Word) :
    (s.setWcur c v).wend = s.wend := rfl
@[simp] theorem State.setWcur_fault (s : State) (c : Channel) (v : Word) :
    (s.setWcur c v).fault = s.fault := rfl
@[simp] theorem State.setWcur_faultAddr (s : State) (c : Channel) (v : Word) :
    (s.setWcur c v).faultAddr = s.faultAddr := rfl
@[simp] theorem State.setWcur_store (s : State) (c : Channel) (v : Word) :
    (s.setWcur c v).store = s.store := rfl
@[simp] theorem State.setWcur_dest (s : State) (c : Channel) (v : Word) :
    (s.setWcur c v).dest = s.dest := rfl
@[simp] theorem State.setWcur_inputs (s : State) (c : Channel) (v : Word) :
    (s.setWcur c v).inputs = s.inputs := rfl
@[simp] theorem State.setWcur_responses (s : State) (c : Channel) (v : Word) :
    (s.setWcur c v).responses = s.responses := rfl
@[simp] theorem State.setWcur_draws (s : State) (c : Channel) (v : Word) :
    (s.setWcur c v).draws = s.draws := rfl
@[simp] theorem State.setWcur_halted (s : State) (c : Channel) (v : Word) :
    (s.setWcur c v).halted = s.halted := rfl

/-! ### startCursors -/

@[simp] theorem State.startCursors_params (s : State) :
    (s.startCursors).params = s.params := rfl
@[simp] theorem State.startCursors_wcur0 (s : State) :
    (s.startCursors).wcur0 = 0 := rfl
@[simp] theorem State.startCursors_wcur1 (s : State) :
    (s.startCursors).wcur1 = 2 := rfl
@[simp] theorem State.startCursors_rcur (s : State) :
    (s.startCursors).rcur = 0 := rfl
@[simp] theorem State.startCursors_wend (s : State) :
    (s.startCursors).wend = 0 := rfl
@[simp] theorem State.startCursors_fault (s : State) :
    (s.startCursors).fault = s.fault := rfl
@[simp] theorem State.startCursors_faultAddr (s : State) :
    (s.startCursors).faultAddr = s.faultAddr := rfl
@[simp] theorem State.startCursors_store (s : State) :
    (s.startCursors).store = s.store := rfl
@[simp] theorem State.startCursors_dest (s : State) :
    (s.startCursors).dest = s.dest := rfl
@[simp] theorem State.startCursors_inputs (s : State) :
    (s.startCursors).inputs = s.inputs := rfl
@[simp] theorem State.startCursors_responses (s : State) :
    (s.startCursors).responses = s.responses := rfl
@[simp] theorem State.startCursors_draws (s : State) :
    (s.startCursors).draws = s.draws := rfl
@[simp] theorem State.startCursors_halted (s : State) :
    (s.startCursors).halted = s.halted := rfl

/-! ### respond -/

@[simp] theorem State.respond_params (s : State) (w : Word) :
    (s.respond w).params = s.params := rfl
@[simp] theorem State.respond_wcur0 (s : State) (w : Word) :
    (s.respond w).wcur0 = s.wcur0 := rfl
@[simp] theorem State.respond_wcur1 (s : State) (w : Word) :
    (s.respond w).wcur1 = s.wcur1 := rfl
@[simp] theorem State.respond_rcur (s : State) (w : Word) :
    (s.respond w).rcur = s.rcur := rfl
@[simp] theorem State.respond_wend (s : State) (w : Word) :
    (s.respond w).wend = s.wend := rfl
@[simp] theorem State.respond_fault (s : State) (w : Word) :
    (s.respond w).fault = s.fault := rfl
@[simp] theorem State.respond_faultAddr (s : State) (w : Word) :
    (s.respond w).faultAddr = s.faultAddr := rfl
@[simp] theorem State.respond_store (s : State) (w : Word) :
    (s.respond w).store = s.store := rfl
@[simp] theorem State.respond_dest (s : State) (w : Word) :
    (s.respond w).dest = s.dest := rfl
@[simp] theorem State.respond_inputs (s : State) (w : Word) :
    (s.respond w).inputs = s.inputs := rfl
@[simp] theorem State.respond_responses (s : State) (w : Word) :
    (s.respond w).responses = s.responses ++ [w] := rfl
@[simp] theorem State.respond_draws (s : State) (w : Word) :
    (s.respond w).draws = s.draws := rfl
@[simp] theorem State.respond_halted (s : State) (w : Word) :
    (s.respond w).halted = s.halted := rfl
@[simp] theorem State.respond_wcur (s : State) (w : Word) (d : Channel) :
    (s.respond w).wcur d = s.wcur d := by cases d <;> rfl

/-! ### raiseFault -/

@[simp] theorem State.raiseFault_params (s : State) (w : Word) (c : Cause) (addr : Word) :
    (s.raiseFault w c addr).params = s.params := rfl
@[simp] theorem State.raiseFault_wcur0 (s : State) (w : Word) (c : Cause) (addr : Word) :
    (s.raiseFault w c addr).wcur0 = s.wcur0 := rfl
@[simp] theorem State.raiseFault_wcur1 (s : State) (w : Word) (c : Cause) (addr : Word) :
    (s.raiseFault w c addr).wcur1 = s.wcur1 := rfl
@[simp] theorem State.raiseFault_rcur (s : State) (w : Word) (c : Cause) (addr : Word) :
    (s.raiseFault w c addr).rcur = s.rcur := rfl
@[simp] theorem State.raiseFault_wend (s : State) (w : Word) (c : Cause) (addr : Word) :
    (s.raiseFault w c addr).wend = s.wend := rfl
@[simp] theorem State.raiseFault_fault (s : State) (w : Word) (c : Cause) (addr : Word) :
    (s.raiseFault w c addr).fault = faultWord w c := rfl
@[simp] theorem State.raiseFault_faultAddr (s : State) (w : Word) (c : Cause) (addr : Word) :
    (s.raiseFault w c addr).faultAddr = addr := rfl
@[simp] theorem State.raiseFault_store (s : State) (w : Word) (c : Cause) (addr : Word) :
    (s.raiseFault w c addr).store = s.store := rfl
@[simp] theorem State.raiseFault_dest (s : State) (w : Word) (c : Cause) (addr : Word) :
    (s.raiseFault w c addr).dest = s.dest := rfl
@[simp] theorem State.raiseFault_inputs (s : State) (w : Word) (c : Cause) (addr : Word) :
    (s.raiseFault w c addr).inputs = s.inputs := rfl
@[simp] theorem State.raiseFault_responses (s : State) (w : Word) (c : Cause) (addr : Word) :
    (s.raiseFault w c addr).responses = s.responses := rfl
@[simp] theorem State.raiseFault_draws (s : State) (w : Word) (c : Cause) (addr : Word) :
    (s.raiseFault w c addr).draws = s.draws := rfl
@[simp] theorem State.raiseFault_wcur (s : State) (w : Word) (c : Cause) (addr : Word) (d : Channel) :
    (s.raiseFault w c addr).wcur d = s.wcur d := by cases d <;> rfl

/-! ### powerOnReset -/

@[simp] theorem State.powerOnReset_params (s : State) :
    (s.powerOnReset).params = s.params := rfl
@[simp] theorem State.powerOnReset_wcur0 (s : State) :
    (s.powerOnReset).wcur0 = 0 := rfl
@[simp] theorem State.powerOnReset_wcur1 (s : State) :
    (s.powerOnReset).wcur1 = 2 := rfl
@[simp] theorem State.powerOnReset_rcur (s : State) :
    (s.powerOnReset).rcur = 0 := rfl
@[simp] theorem State.powerOnReset_wend (s : State) :
    (s.powerOnReset).wend = 0 := rfl
@[simp] theorem State.powerOnReset_fault (s : State) :
    (s.powerOnReset).fault = 0 := rfl
@[simp] theorem State.powerOnReset_faultAddr (s : State) :
    (s.powerOnReset).faultAddr = 0 := rfl
@[simp] theorem State.powerOnReset_store (s : State) :
    (s.powerOnReset).store = [] := rfl
@[simp] theorem State.powerOnReset_dest (s : State) :
    (s.powerOnReset).dest = s.dest := rfl
@[simp] theorem State.powerOnReset_inputs (s : State) :
    (s.powerOnReset).inputs = s.inputs := rfl
@[simp] theorem State.powerOnReset_responses (s : State) :
    (s.powerOnReset).responses = s.responses := rfl
@[simp] theorem State.powerOnReset_draws (s : State) :
    (s.powerOnReset).draws = s.draws := rfl

@[simp] theorem State.setWcur_wcur_same (s : State) (c : Channel) (v : Word) :
    (s.setWcur c v).wcur c = v := by cases c <;> rfl

theorem State.setWcur_wcur_other (s : State) {c d : Channel} (v : Word) (h : d ≠ c) :
    (s.setWcur c v).wcur d = s.wcur d := by cases c <;> cases d <;> first | rfl | exact absurd rfl h

@[simp] theorem State.startCursors_wcur (s : State) (c : Channel) :
    (s.startCursors).wcur c = BitVec.ofNat 32 (channelOffset c) := by cases c <;> rfl

@[simp] theorem State.powerOnReset_wcur (s : State) (c : Channel) :
    (s.powerOnReset).wcur c = BitVec.ofNat 32 (channelOffset c) := by cases c <;> rfl

@[simp] theorem State.powerOnReset_halted (s : State) : s.powerOnReset.halted = false := rfl

/-- Power-on is power-on reset of any machine with these parameters and ports and no history. -/
theorem State.powerOn_eq (p : Params) (dest : Memory) (inputs : List HostInput) :
    State.powerOn p dest inputs =
      { State.reset with params := p, dest := dest, inputs := inputs } := rfl

end Sys2Proof.Machine
end

