-- ==== Sys2Proof/Laws/Ops.lean ====
section
/-! SUPPORT. What each shared operation can do, said once: the guard of a transaction, the draws, the loops of
APPEND.B and of READ. -/

namespace Sys2Proof.Machine

/-! ### The guard of a transaction -/

theorem State.whenRunning_of_running {s : State} (k : Host.Outcome State Fault Refusal)
    (h : s.running) : s.whenRunning k = k := by
  simp [State.whenRunning, State.requireParams, h.1, h.2]

theorem State.whenRunning_of_halted {s : State} (k : Host.Outcome State Fault Refusal)
    (hp : s.params.legal = true) (h : s.halted = true) : s.whenRunning k = .fault .halted := by
  simp [State.whenRunning, State.requireParams, hp, h]

/-- A guarded transaction answers a next state only in a running ISB, and then it is the guarded one's. -/
theorem State.whenRunning_next {s t : State} {k : Host.Outcome State Fault Refusal}
    (h : s.whenRunning k = .next t) : s.running ∧ k = .next t := by
  unfold State.whenRunning State.requireParams at h
  split at h
  · rename_i hp
    split at h
    · cases h
    · rename_i hh
      exact ⟨⟨hp, by simpa using hh⟩, h⟩
  · cases h

theorem State.requireParams_next {s t : State} {k : Host.Outcome State Fault Refusal}
    (h : s.requireParams k = .next t) : s.params.legal = true ∧ k = .next t := by
  unfold State.requireParams at h
  split at h
  · rename_i hp; exact ⟨hp, h⟩
  · cases h

/-! ### Bytes of the store -/

/-- The memories of the reset state are in canonical form. -/
theorem State.reset_memories_wf : State.reset.store.wf = true ∧ State.reset.dest.wf = true :=
  ⟨rfl, rfl⟩

theorem State.written_storeWrite (s : State) (a x : Nat) (b : Byte) :
    (s.storeWrite a b).written x = (decide (x = a) || s.written x) := by
  simp only [State.written, State.storeWrite_store, Memory.read_write]
  by_cases h : x = a <;> simp [h]

/-- Reading a byte of the store changes nothing but the count of draws. -/
theorem State.storeRead_snd (s : State) (a : Nat) :
    (s.storeRead a).2 = { s with draws := s.draws + if s.written a then 0 else 1 } := by
  unfold State.storeRead State.written
  cases s.store.read a <;> rfl

/-- A written byte is returned as written. -/
theorem State.storeRead_of_read {s : State} {a : Nat} {b : Byte} (h : s.store.read a = some b) :
    s.storeRead a = (b, s) := by
  simp [State.storeRead, h]

/-- A byte never written is returned as a fresh draw. -/
theorem State.storeRead_of_not_written {s : State} {a : Nat} (h : s.written a = false) :
    s.storeRead a = (Config.freeByte s.draws, { s with draws := s.draws + 1 }) := by
  simp only [State.written, Option.isSome_eq_false_iff, Option.isNone_iff_eq_none] at h
  simp [State.storeRead, h]

/-- The byte `StoreRead` returns depends on the store at that address and the count of draws alone. -/
theorem State.storeRead_fst (s : State) (a : Nat) :
    (s.storeRead a).1 = (s.store.read a).getD (Config.freeByte s.draws) := by
  unfold State.storeRead
  cases s.store.read a <;> rfl

/-! ### Channels and cursors -/

theorem channelOf?_eq_some {ch : BitVec 4} {c : Channel} :
    channelOf? ch = some c ↔ ch.toNat = channelOffset c / 2 := by
  revert ch
  cases c <;> decide

theorem channelOf?_eq_none {ch : BitVec 4} : channelOf? ch = none ↔ 2 ≤ ch.toNat := by
  revert ch
  decide

/-! ### One sample of a block -/

theorem toSample_snd (d : Nat) (f : Word) :
    (toSample d f).2 = d + if (clampTrunc (readBinary32 f)).isSome then 0 else 1 := by
  unfold toSample
  cases clampTrunc (readBinary32 f) <;> rfl

theorem toSample_of_value {d : Nat} {f : Word} {y : Int}
    (h : clampTrunc (readBinary32 f) = some y) : toSample d f = (BitVec.ofInt 16 y, d) := by
  simp [toSample, h]

theorem toSample_of_nan {d : Nat} {f : Word} (h : clampTrunc (readBinary32 f) = none) :
    toSample d f = (Config.freeSample d, d + 1) := by
  simp [toSample, h]

theorem State.writeBlockSample_eq (s : State) (a : Nat) (f : Word) :
    s.writeBlockSample a f =
      { s with
        store := (s.store.write a (lowByte (toSample s.draws f).1)).write (a + 1)
          (highByte (toSample s.draws f).1)
        draws := (toSample s.draws f).2 } := rfl

/-! ### The loop of APPEND.B -/

/-- The loop changes the store and the count of draws, nothing else. -/
theorem State.writeBlock_eq (s : State) (a : Nat) (fs : List Word) :
    s.writeBlock a fs =
      { s with store := (s.writeBlock a fs).store, draws := (s.writeBlock a fs).draws } := by
  induction fs generalizing s a with
  | nil => rfl
  | cons f rest ih =>
    rw [State.writeBlock, ih]
    rfl

theorem State.writeBlock_draws_le (s : State) (a : Nat) (fs : List Word) :
    s.draws ≤ (s.writeBlock a fs).draws := by
  induction fs generalizing s a with
  | nil => exact Nat.le_refl _
  | cons f rest ih =>
    refine Nat.le_trans ?_ (ih (s.writeBlockSample a f) (a + 4))
    rw [State.writeBlockSample_eq, toSample_snd]
    exact Nat.le_add_right _ _

/-- The loop keeps the canonical form of the store. -/
theorem State.writeBlock_wf (s : State) (a : Nat) (fs : List Word) (h : s.store.wf = true) :
    (s.writeBlock a fs).store.wf = true := by
  induction fs generalizing s a with
  | nil => exact h
  | cons f rest ih =>
    refine ih _ _ ?_
    exact Memory.wf_write _ _ _ (Memory.wf_write _ _ _ h)

/-- The loop keeps the store within its size, when the block's last byte is within it. -/
theorem State.writeBlock_within (s : State) (a : Nat) (fs : List Word) {size : Nat}
    (ha : a + 4 * fs.length ≤ size + 2) (h : s.store.within size = true) :
    (s.writeBlock a fs).store.within size = true := by
  induction fs generalizing s a with
  | nil => exact h
  | cons f rest ih =>
    simp only [List.length_cons] at ha
    refine ih _ _ (by omega) ?_
    exact Memory.within_write _ _ (by omega) (Memory.within_write _ _ (by omega) h)

/-- A byte that is in none of the block's slots keeps its value. -/
theorem State.writeBlock_read_other (s : State) (a x : Nat) (fs : List Word)
    (h : ∀ k, k < fs.length → x ≠ a + 4 * k ∧ x ≠ a + 4 * k + 1) :
    (s.writeBlock a fs).store.read x = s.store.read x := by
  induction fs generalizing s a with
  | nil => rfl
  | cons f rest ih =>
    rw [State.writeBlock, ih]
    · have h0 := h 0 (by simp)
      simp only [Nat.mul_zero, Nat.add_zero] at h0
      simp [State.writeBlockSample_eq, Memory.read_write, h0.1, h0.2]
    · intro k hk
      have := h (k + 1) (by simp [hk])
      omega

/-- The `k`-th slot of a block holds the low and high byte of the `k`-th sample: its conversion, or a draw
where the pattern is a NaN. -/
theorem State.writeBlock_read_slot (s : State) (a k : Nat) (fs : List Word) (hk : k < fs.length) :
    ∃ v : Sample,
      (s.writeBlock a fs).store.read (a + 4 * k) = some (lowByte v) ∧
      (s.writeBlock a fs).store.read (a + 4 * k + 1) = some (highByte v) ∧
      ∀ y, clampTrunc (readBinary32 fs[k]) = some y → v = BitVec.ofInt 16 y := by
  induction fs generalizing s a k with
  | nil => simp at hk
  | cons f rest ih =>
    cases k with
    | zero =>
      have hout : ∀ x, x < a + 4 →
          (s.writeBlock a (f :: rest)).store.read x = (s.writeBlockSample a f).store.read x := by
        intro x hx
        exact State.writeBlock_read_other (s.writeBlockSample a f) (a + 4) x rest
          fun k _ => by omega
      refine ⟨(toSample s.draws f).1, ?_, ?_, ?_⟩
      · rw [hout _ (by omega)]
        simp [State.writeBlockSample_eq, Memory.read_write]
      · rw [hout _ (by omega)]
        simp [State.writeBlockSample_eq]
      · intro y hy
        simp only [List.getElem_cons_zero] at hy
        rw [toSample_of_value hy]
    | succ k =>
      have := ih (s.writeBlockSample a f) (a + 4) k (by simpa using hk)
      have e : a + 4 * (k + 1) = a + 4 + 4 * k := by omega
      simpa [State.writeBlock, e] using this

/-- A byte that was written stays written through a block. -/
theorem State.writeBlock_written (s : State) (a x : Nat) (fs : List Word)
    (h : s.written x = true) : (s.writeBlock a fs).written x = true := by
  induction fs generalizing s a with
  | nil => exact h
  | cons f rest ih =>
    refine ih _ _ ?_
    simp only [State.written] at h
    simp only [State.written, State.writeBlockSample_eq, Memory.read_write]
    split
    · rfl
    · split
      · rfl
      · exact h

/-! ### The loop of READ -/

/-- One turn of the loop: a byte of DEST is written and a draw may be counted. -/
theorem State.copyOut_succ (s : State) (src dst n : Nat) :
    s.copyOut src dst (n + 1) =
      State.copyOut
        { s with
          dest := s.dest.write dst ((s.store.read src).getD (Config.freeByte s.draws))
          draws := s.draws + if s.written src then 0 else 1 }
        (src + 1) (dst + 1) n := by
  rw [State.copyOut, State.storeRead_fst, State.storeRead_snd]
  rfl

/-- The loop changes DEST and the count of draws, nothing else. -/
theorem State.copyOut_eq (s : State) (src dst n : Nat) :
    s.copyOut src dst n =
      { s with dest := (s.copyOut src dst n).dest, draws := (s.copyOut src dst n).draws } := by
  induction n generalizing s src dst with
  | zero => rfl
  | succ n ih =>
    rw [State.copyOut_succ, ih]

theorem State.copyOut_draws_le (s : State) (src dst n : Nat) :
    s.draws ≤ (s.copyOut src dst n).draws := by
  induction n generalizing s src dst with
  | zero => exact Nat.le_refl _
  | succ n ih =>
    rw [State.copyOut_succ]
    refine Nat.le_trans ?_ (ih _ _ _)
    exact Nat.le_add_right _ _

theorem State.copyOut_wf (s : State) (src dst n : Nat) (h : s.dest.wf = true) :
    (s.copyOut src dst n).dest.wf = true := by
  induction n generalizing s src dst with
  | zero => exact h
  | succ n ih =>
    rw [State.copyOut_succ]
    exact ih _ _ _ (Memory.wf_write _ _ _ h)

theorem State.copyOut_within (s : State) (src dst n : Nat) {size : Nat} (hb : dst + n ≤ size)
    (h : s.dest.within size = true) : (s.copyOut src dst n).dest.within size = true := by
  induction n generalizing s src dst with
  | zero => exact h
  | succ n ih =>
    rw [State.copyOut_succ]
    exact ih _ _ _ (by omega) (Memory.within_write _ _ (by omega) h)

/-- A byte outside the range written keeps its value. -/
theorem State.copyOut_read_other (s : State) (src dst n x : Nat) (h : x < dst ∨ dst + n ≤ x) :
    (s.copyOut src dst n).dest.read x = s.dest.read x := by
  induction n generalizing s src dst with
  | zero => rfl
  | succ n ih =>
    rw [State.copyOut_succ, ih _ _ _ (by omega)]
    exact Memory.read_write_other _ _ (by omega)

/-- Every byte of the range is written: with the byte of the store where it is written, with a draw where it is
not. -/
theorem State.copyOut_read_range (s : State) (src dst n i : Nat) (hi : i < n) :
    ∃ b, (s.copyOut src dst n).dest.read (dst + i) = some b ∧
      ∀ v, s.store.read (src + i) = some v → b = v := by
  induction n generalizing s src dst i with
  | zero => omega
  | succ n ih =>
    rw [State.copyOut_succ]
    cases i with
    | zero =>
      refine ⟨(s.store.read src).getD (Config.freeByte s.draws), ?_, ?_⟩
      · rw [State.copyOut_read_other _ _ _ _ _ (by omega)]
        simp
      · intro v hv
        simp only [Nat.add_zero] at hv
        simp [hv]
    | succ i =>
      obtain ⟨b, hb, hv⟩ := ih
        { s with
          dest := s.dest.write dst ((s.store.read src).getD (Config.freeByte s.draws))
          draws := s.draws + if s.written src then 0 else 1 } (src + 1) (dst + 1) i (by omega)
      refine ⟨b, ?_, ?_⟩
      · rw [← hb]; congr 1; omega
      · intro v hv'
        refine hv v ?_
        rw [← hv']
        change s.store.read (src + 1 + i) = _
        congr 1; omega

/-- A range in two parts is copied as one. -/
theorem State.copyOut_add (s : State) (src dst n m : Nat) :
    s.copyOut src dst (n + m) = (s.copyOut src dst n).copyOut (src + n) (dst + n) m := by
  induction n generalizing s src dst with
  | zero => simp [State.copyOut]
  | succ n ih =>
    rw [show n + 1 + m = (n + m) + 1 by omega, State.copyOut_succ, State.copyOut_succ, ih]
    congr 1 <;> omega

/-- The loop depends on nothing of the store but the bytes of its range. -/
theorem State.copyOut_congr (s t : State) (src dst n : Nat) (hdest : s.dest = t.dest)
    (hdraws : s.draws = t.draws)
    (h : ∀ i, i < n → s.store.read (src + i) = t.store.read (src + i)) :
    (s.copyOut src dst n).dest = (t.copyOut src dst n).dest ∧
      (s.copyOut src dst n).draws = (t.copyOut src dst n).draws := by
  induction n generalizing s t src dst with
  | zero => exact ⟨hdest, hdraws⟩
  | succ n ih =>
    rw [State.copyOut_succ, State.copyOut_succ]
    have h0 : s.store.read src = t.store.read src := by simpa using h 0 (by omega)
    have hw : s.written src = t.written src := by simp only [State.written, h0]
    refine ih _ _ _ _ ?_ ?_ ?_
    · simp [h0, hdest, hdraws]
    · simp only [hw, hdraws]
    · intro i hi
      have := h (i + 1) (by omega)
      simpa [Nat.add_assoc, Nat.add_comm 1 i] using this

/-- Where every byte of the range is written, no draw is taken. -/
theorem State.copyOut_draws_of_written (s : State) (src dst n : Nat)
    (h : ∀ i, i < n → s.written (src + i) = true) :
    (s.copyOut src dst n).draws = s.draws := by
  induction n generalizing s src dst with
  | zero => rfl
  | succ n ih =>
    rw [State.copyOut_succ, ih]
    · have := h 0 (by omega)
      simp only [Nat.add_zero] at this
      simp [this]
    · intro i hi
      have := h (i + 1) (by omega)
      simpa [State.written, Nat.add_assoc, Nat.add_comm 1 i] using this

/-! ### The copy count -/

theorem State.copyCount_le_available (s : State) (maxCount : Nat) :
    s.copyCount maxCount ≤ s.bytesAvailable := by
  unfold State.copyCount
  split <;> omega

theorem State.copyCount_le_maxCount (s : State) (maxCount : Nat) :
    s.copyCount maxCount ≤ maxCount := by
  unfold State.copyCount
  split <;> omega

theorem State.copyCount_aligned (s : State) (maxCount : Nat) (h : s.bytesAvailable % 4 = 0) :
    s.copyCount maxCount % 4 = 0 := by
  unfold State.copyCount
  split <;> omega

theorem State.copyCount_eq_min (s : State) (maxCount : Nat) (h : s.bytesAvailable % 4 = 0) :
    s.copyCount maxCount = min (maxCount - maxCount % 4) s.bytesAvailable := by
  unfold State.copyCount
  split <;> omega

end Sys2Proof.Machine
end

