-- ==== Sys2Proof/Laws/PerInstr.lean ====
section
/-! SUPPORT. Statements for all commands, one lemma for each: the encoding of a well-formed command carries the
number of operand words its opcode asks for (30_encoding.md R45, R54). -/

namespace Sys2Proof.Laws

/-- The operand count of the encoding is fixed by its command word's opcode alone (30_encoding.md R54). -/
def OperandCount.Statement (i : Instr) : Prop :=
  i.wellFormed = true → (operandWords i).length = operandCount (opField (commandWord i))

theorem opField_appendS (ch : BitVec 4) (v : Sample) : opField (commandWord (.appendS ch v)) = 1#4 := by
  have h := Machine.commandWord_appendS_toNat ch v
  have := ch.isLt
  have := v.isLt
  generalize commandWord (.appendS ch v) = w at *
  rw [← BitVec.toNat_inj, Machine.opField_toNat, Safety.opOf, BitVec.toNat_ofNat]
  omega

theorem opField_appendB (ch : BitVec 4) (fs : List Word) :
    opField (commandWord (.appendB ch fs)) = 2#4 := by
  have h := Machine.commandWord_appendB_toNat ch fs
  have := ch.isLt
  generalize commandWord (.appendB ch fs) = w at *
  rw [← BitVec.toNat_inj, Machine.opField_toNat, Safety.opOf, BitVec.toNat_ofNat]
  omega

theorem opField_read (m : BitVec 28) (d : Word) : opField (commandWord (.read m d)) = 4#4 := by
  have h := Machine.commandWord_read_toNat m d
  have := m.isLt
  generalize commandWord (.read m d) = w at *
  rw [← BitVec.toNat_inj, Machine.opField_toNat, Safety.opOf, BitVec.toNat_ofNat]
  omega

theorem OperandCount.appendS (ch : BitVec 4) (value : Sample) :
    OperandCount.Statement (.appendS ch value) := fun _ => by
  rw [opField_appendS]; rfl

theorem OperandCount.appendB (ch : BitVec 4) (samples : List Word) :
    OperandCount.Statement (.appendB ch samples) := fun h => by
  rw [opField_appendB]
  exact of_decide_eq_true h

theorem OperandCount.finalize : OperandCount.Statement .finalize := fun _ => rfl

theorem OperandCount.read (maxCount : BitVec 28) (destOff : Word) :
    OperandCount.Statement (.read maxCount destOff) := fun _ => by
  rw [opField_read]; rfl

theorem OperandCount.reset : OperandCount.Statement .reset := fun _ => rfl

theorem OperandCount.avail : OperandCount.Statement .avail := fun _ => rfl

end Sys2Proof.Laws
end

