-- ==== Sys2Proof/Tests/Slice0.lean ====
section
/-! SUPPORT. Checks of the model against the spec's own vectors (spec/95_test_vectors.md and the tables of the
rules), each about one step, and a witness for every statement that has hypotheses. -/

namespace Sys2Proof.Tests

open Sys2Proof Sys2Proof.Machine Sys2Proof.Safety

/-- The next state, if there is one. -/
def stateOf (o : Host.Outcome State Fault Refusal) : Option State :=
  match o with
  | .next t => some t
  | .fault _ => none
  | .refused _ => none

/-- An ISB after power-on with the given sizes. -/
def fresh (cap destSize : Nat) : State :=
  State.powerOn { cap := cap, destSize := destSize } [] []

/-- The bytes `ops` listed from address `a` on. -/
def bytesFrom (a : Nat) : List Byte → Memory
  | [] => []
  | b :: rest => (a, b) :: bytesFrom (a + 1) rest

/-- FAULT and FAULT_ADDR after one transaction. -/
def statusAfter (s : State) (w : Word) (ops : List Word) : Option (Word × Word) :=
  (stateOf (step { s with inputs := [.command w ops] })).map State.statusOutputs

/-- The store, the cursors of the channels after a command. -/
def appended (o : Host.Outcome State Fault Refusal) : Option (Memory × Word × Word) :=
  (stateOf o).map fun t => (t.store, t.wcur0, t.wcur1)

/-- The end of V1 of 41 and of 95 P1: two frames finalized. -/
def twoFrames : State :=
  { fresh 16 16 with
    wcur0 := 8, wcur1 := 10, wend := 8
    store := bytesFrom 0 [0x34, 0x12, 0xFE, 0xFF, 0x00, 0x80, 0xFF, 0x7F] }

/-- A halted ISB: 95 V7, FAULT = 0x14. -/
def halted : State := { fresh 16 16 with wcur0 := 8, wcur1 := 10, wend := 8, fault := 0x14 }

/-! ### WellFormed -/

theorem test_wellFormed_refuses_short_block :
    (Instr.appendB 0 (List.replicate 31 0)).wellFormed = false := by decide

theorem test_wellFormed_refuses_long_block :
    (Instr.appendB 0 (List.replicate 33 0)).wellFormed = false := by decide

/-! ### Decoding: every constructor's word written out from the patterns of 30_encoding.md R48 -/

/-- R56: `APPEND.S 0, -2` is 0x1000FFFE. -/
theorem test_decode_appendS :
    decode 0b00010000000000001111111111111110 [] = .ok (.appendS 0 0xFFFE) := by decide

theorem test_decode_appendB :
    decode 0b00100000000000010000000000000000 (List.replicate 32 0x43800000) =
      .ok (.appendB 1 (List.replicate 32 0x43800000)) := by decide

theorem test_decode_finalize : decode 0b00110000000000000000000000000000 [] = .ok .finalize := by
  decide

/-- R56: `READ 7, 0` is 0x40000007 with the operand word 0. -/
theorem test_decode_read :
    decode 0b01000000000000000000000000000111 [0] = .ok (.read 7 0) := by decide

theorem test_decode_reset : decode 0b01010000000000000000000000000000 [] = .ok .reset := by decide

theorem test_decode_avail : decode 0b01100000000000000000000000000000 [] = .ok .avail := by decide

/-- The rows of R48 do not overlap: no word selects two. -/
theorem test_rows_disjoint :
    encodingRows.Pairwise (fun r q => r.pattern &&& q.mask &&& r.mask ≠ q.pattern &&& r.mask) := by
  decide

theorem test_decodeTableWord :
    decodeTableWord 32 0x10001234 = some (.appendS 0 0x1234) ∧
    decodeTableWord 32 0x20000000 = some (.appendB 0 (List.replicate 32 0)) ∧
    decodeTableWord 32 0x30000000 = some .finalize ∧
    decodeTableWord 32 0x40000007 = some (.read 7 0) ∧
    decodeTableWord 64 0x0000000940000007 = some (.read 7 9) ∧
    decodeTableWord 32 0x50000000 = some .reset ∧
    decodeTableWord 32 0x60000000 = some .avail ∧
    decodeTableWord 32 0x30000001 = none := by decide

/-- 95 V1: the fault words of malformed transactions, from power-on. -/
theorem test_faults_of_malformed :
    statusAfter (fresh 16 16) 0x00000000 [] = some (0x00000001, 0) ∧
    statusAfter (fresh 16 16) 0x70000000 [] = some (0x00000071, 0) ∧
    statusAfter (fresh 16 16) 0xF0000000 [] = some (0x000000F1, 0) ∧
    statusAfter (fresh 16 16) 0x30000001 [] = some (0x00000031, 0) ∧
    statusAfter (fresh 16 16) 0x20000001 (List.replicate 32 0) = some (0x00000021, 0) ∧
    statusAfter (fresh 16 16) 0x1012ABCD [] = some (0x00000211, 0) ∧
    statusAfter (fresh 16 16) 0x10020005 [] = some (0x00000212, 0) ∧
    statusAfter (fresh 16 16) 0x20030000 (List.replicate 31 0) = some (0x00000323, 0) ∧
    statusAfter (fresh 16 16) 0x10000001 [0] = some (0x00000013, 0) ∧
    statusAfter (fresh 16 16) 0x40000004 [] = some (0x00000043, 0) ∧
    statusAfter (fresh 16 16) 0x60000000 [0] = some (0x00000063, 0) ∧
    statusAfter (fresh 16 16) 0x4ABC0004 [0] = some (0, 0) := by decide

/-! ### APPEND.S: 95 V2 -/

theorem test_appendS_low_byte_first :
    appended (exec (.appendS 1 0xFFFE) (fresh 16 16)) = some ([(2, 0xFE), (3, 0xFF)], 0, 6) := by
  decide

theorem test_appendS_past_cap :
    (stateOf (exec (.appendS 1 1) { fresh 16 16 with wcur1 := 18 })).map
      (fun t => (t.statusOutputs, t.wcur1, t.store)) = some ((0x00000114, 18), 18, []) := by decide

/-! ### APPEND.B: 95 V3 and 40_append.md R65 -/

/-- The conversions of 95 V3 that are no NaN. -/
theorem test_toSample :
    [0x7F800000, 0xFF800000, 0x471C4000, 0xC71C4000, 0x47000000, 0x46FFFE00, 0x46FFFF00, 0x46FFFD00,
      0xC6FFFF00, 0xC7000000, 0x4640E400, 0xC640E400, 0x42C88000, 0xC2C98000, 0x3FF33333, 0xBFF33333,
      0x3F7FBE77, 0xBF800000, 0x00000000, 0x80000000, 0x00000001].map (toSample 7) =
    [0x7FFF, 0x8001, 0x7FFF, 0x8001, 0x7FFF, 0x7FFF, 0x7FFF, 0x7FFE,
      0x8001, 0x8001, 0x3039, 0xCFC7, 0x0064, 0xFF9C, 0x0001, 0xFFFF,
      0x0000, 0xFFFF, 0x0000, 0x0000, 0x0000].map (fun v => (v, 7)) := by decide

/-- The last row of 95 V3's conversions: a NaN takes a draw. -/
theorem test_toSample_nan :
    toSample 7 0x7FC00000 = (Config.freeSample 7, 8) ∧
    toSample 8 0xFFFFFFFF = (Config.freeSample 8, 9) := ⟨rfl, rfl⟩

/-- 95 V3, row 5 of the whole-command vectors: the last slot ends at CAP, WCUR[1] = CAP + 2. -/
theorem test_appendB_last_slots :
    (stateOf (exec (.appendB 1 (List.replicate 32 0x43800000)) { fresh 132 16 with wcur1 := 6 })).map
      (fun t => (t.wcur1, t.store.read 6, t.store.read 7, t.store.read 8, t.store.read 131,
        t.store.read 5, t.fault)) = some (134, some 0, some 1, none, some 1, none, 0) := by decide

/-- 95 V3, row 4: the block does not fit, and nothing is written. -/
theorem test_appendB_past_cap :
    (stateOf (exec (.appendB 1 (List.replicate 32 0)) { fresh 128 16 with wcur1 := 6 })).map
      (fun t => (t.statusOutputs, t.store)) = some ((0x00000124, 6), []) := by decide

/-! ### FINALIZE, READ, AVAIL, RESET: 95 V4 to V7 -/

theorem test_finalize_mid_drain :
    (stateOf (exec .finalize { fresh 16 16 with wcur0 := 8, wcur1 := 10, rcur := 4, wend := 8 })).map
      (fun t => (t.rcur, t.wend)) = some (0, 8) := by decide

/-- 41_finalize_read.md R69's worked example. -/
theorem test_read_rounds_down :
    (stateOf (exec (.read 7 0) twoFrames)).map (fun t => (t.dest, t.rcur, t.responses, t.draws)) =
      some (bytesFrom 0 [0x34, 0x12, 0xFE, 0xFF], 4, [4], 0) := by decide

/-- 95 V5: `READ 4, 1` with DEST_SIZE = 4. -/
theorem test_read_past_dest :
    (stateOf (exec (.read 4 1)
      { twoFrames with params := { cap := 16, destSize := 4 } })).map
      (fun t => (t.statusOutputs, t.dest, t.rcur, t.responses)) =
      some ((0x00000045, 1), [], 0, []) := by decide

theorem test_avail_reports_the_rest :
    (stateOf (exec .avail { fresh 256 16 with wcur0 := 128, wend := 128, rcur := 64 })).map
      (fun t => (t.responses, t.rcur)) = some ([64], 64) := by decide

theorem test_reset_keeps_store :
    (stateOf (exec .reset { twoFrames with rcur := 4 })).map
      (fun t => ((t.wcur0, t.wcur1, t.rcur, t.wend), t.store)) =
      some ((0, 2, 0, 0), twoFrames.store) := by decide

/-- 95 V7, last row: a halted ISB does not take RESET; a power-on reset it takes. -/
theorem test_halted :
    exec .reset halted = .fault .halted ∧
    step { halted with inputs := [.command 0x50000000 []] } = .fault .halted ∧
    (stateOf (step { halted with inputs := [.powerOnReset] })).map
      (fun t => (t.fault, t.wcur0, t.wcur1)) = some (0, 0, 2) := ⟨rfl, rfl, by decide⟩

/-- Each command as the first after reset, as the host offers it. -/
theorem test_first_command_after_reset :
    [0x10001234, 0x20000000, 0x30000000, 0x40000007, 0x50000000, 0x60000000].map
      (fun w => (stateOf (step (State.reset.withFetchWord 32 w))).map
        (fun t => (t.fault, t.wcur0, t.responses))) =
    [some (0, 4, []), some (0, 128, []), some (0, 0, []), some (0, 0, [0]), some (0, 0, []),
      some (0, 0, [0])] := by decide

/-! ### The assembler: 30_encoding.md R56, 95 P2 -/

theorem test_assemble_samples :
    [AsmSample.decimal false 40000 0, .decimal true 400000 1, .decimal false 19 1, .decimal true 19 1,
      .decimal true 0 0, .decimal false 327675 1, .decimal true 32768 0, .infinity false,
      .word 0x43800000, .decimal false 256 0].map assembleSample =
    [0x471C4000, 0xC71C4000, 0x3FF33333, 0xBFF33333, 0x80000000, 0x46FFFF00, 0xC7000000, 0x7F800000,
      0x43800000, 0x43800000].map some := by decide

/-- Ties go to the even pattern: 2^24 + 1 down, 2^24 + 3 up; a hair past the first tie, up; and the last
literal that rounds to the largest finite value, worked out by hand from the format (93 G1). -/
theorem test_assemble_rounds :
    [AsmSample.decimal false 16777217 0, .decimal false 16777219 0, .decimal true 167772171 1,
      .decimal false ((2 ^ 25 - 1) * 2 ^ 103 - 1) 0].map assembleSample =
    [0x4B800000, 0x4B800002, 0xCB800001, 0x7F7FFFFF].map some := by decide

theorem test_assemble_refuses :
    assemble (.appendS 0 (.signed 32768)) = none ∧ assemble (.appendS 16 (.signed 0)) = none ∧
    assemble (.read (2 ^ 28) 0) = none ∧ assemble (.appendB 0 [.word 0]) = none ∧
    (assemble (.appendS 0 (.signed (-2)))).map (List.map encode) = some [(0x1000FFFE, [])] := by
  decide

/-! ### Witnesses: for each statement with hypotheses, a state and operands that meet them together -/

theorem running_fresh : (fresh 16 16).running := by decide

theorem running_twoFrames : twoFrames.running := by decide

/-- The invariant holds of a state with two frames finalized. -/
theorem inv_twoFrames : twoFrames.Inv where
  params_legal := by decide
  store_wf := by decide
  store_within := by decide
  dest_wf := by decide
  dest_within := by decide
  wcur0_aligned := by decide
  wcur0_le := by decide
  wcur1_aligned := by decide
  wcur1_le := by decide
  wend_aligned := by decide
  wend_le := by decide
  rcur_aligned := by decide
  rcur_le := by decide
  slots0_written := by decide
  slots1_written := by
    intro a ha h
    have : a < 10 := ha
    revert a
    decide
  fault_form := by decide

/-- The state with one transaction offered. -/
def offered (s : State) (w : Word) (ops : List Word) : State :=
  { s with inputs := [.command w ops] }

/-- A transaction offered to an ISB that runs. -/
theorem running_offered (w : Word) (ops : List Word) :
    (offered twoFrames w ops).running ∧
    (offered twoFrames w ops).inputs = .command w ops :: [] := ⟨running_twoFrames, rfl⟩

theorem inv_offered {s : State} (h : s.Inv) (w : Word) (ops : List Word) : (offered s w ops).Inv := by
  obtain ⟨h1, h2, h3, h4, h5, h6, h7, h8, h9, h10, h11, h12, h13, h14, h15, h16⟩ := h
  exact ⟨h1, h2, h3, h4, h5, h6, h7, h8, h9, h10, h11, h12, h13, h14, h15, h16⟩

theorem witness_DecodeEncode : (Instr.appendB 1 (List.replicate 32 0)).wellFormed = true := by decide

theorem witness_EncodeDecode : decode 0x4FFFFFFF [0xFFFFFFFF] = .ok (.read 0x0FFFFFFF 0xFFFFFFFF) := by
  decide

theorem witness_StepRunsDecoded :
    (offered twoFrames 0x40000007 [0]).inputs = .command 0x40000007 [0] :: [] ∧
    decode 0x40000007 [0] = .ok (.read 7 0) := by decide

theorem witness_EveryTransactionCompletes :
    (offered twoFrames 0x70000000 [1]).running ∧
    (offered twoFrames 0x70000000 [1]).inputs = .command 0x70000000 [1] :: [] := by decide

theorem witness_IdleKeepsState : (fresh 16 16).running ∧ (fresh 16 16).inputs = [] := by decide

/-- Each of the four constraints, just outside its range. -/
theorem witness_IllegalParametersRefused :
    (⟨0, 16⟩ : Params).legal = false ∧ (⟨6, 16⟩ : Params).legal = false ∧
    (⟨2 ^ 27 + 4, 16⟩ : Params).legal = false ∧ (⟨16, 2 ^ 32 + 1⟩ : Params).legal = false ∧
    ¬ (4 ≤ (fresh 6 16).params.cap ∧ (fresh 6 16).params.cap ≤ 2 ^ 27 ∧
      (fresh 6 16).params.cap % 4 = 0 ∧ (fresh 6 16).params.destSize ≤ 2 ^ 32) := by decide

theorem witness_ParametersNeverChange :
    ∃ t, step (offered twoFrames 0x40000007 [0]) = .next t := ⟨_, rfl⟩

theorem witness_ReservedOpcodeFaults :
    (∀ w ops, (offered twoFrames w ops).running ∧
      (offered twoFrames w ops).inputs = .command w ops :: []) ∧
    opOf 0x00000000 = 0 ∧ 7 ≤ opOf 0x70000000 ∧ 7 ≤ opOf 0xFFFFFFFF :=
  ⟨running_offered, by decide, by decide, by decide⟩

/-- The lowest or the highest reserved bit of each format, and a READ with one operand word. -/
theorem witness_ReservedFieldFaults :
    (∀ w ops, (offered twoFrames w ops).running ∧
      (offered twoFrames w ops).inputs = .command w ops :: []) ∧
    (opOf 0x10100000 = 1 ∧ (0x10100000#32 : Word).toNat / 2 ^ 20 % 2 ^ 8 ≠ 0) ∧
    (opOf 0x28000000 = 2 ∧ (0x28000000#32 : Word).toNat / 2 ^ 20 % 2 ^ 8 ≠ 0) ∧
    (opOf 0x20008000 = 2 ∧ (0x20008000#32 : Word).toNat % 2 ^ 16 ≠ 0) ∧
    (opOf 0x38000000 = 3 ∧ (0x38000000#32 : Word).toNat % 2 ^ 28 ≠ 0) ∧
    (opOf 0x50000001 = 5 ∧ (0x50000001#32 : Word).toNat % 2 ^ 28 ≠ 0) ∧
    (opOf 0x60000001 = 6 ∧ (0x60000001#32 : Word).toNat % 2 ^ 28 ≠ 0) ∧
    opOf 0x40000000 = 4 ∧ ∃ d, ([9] : List Word) = [d] :=
  ⟨running_offered, by decide, by decide, by decide, by decide, by decide, by decide, by decide,
    9, rfl⟩

theorem witness_WrongOperandCountFaults :
    (offered twoFrames 0x20000000 []).running ∧
    (offered twoFrames 0x20000000 []).inputs = .command 0x20000000 [] :: [] ∧
    illegalWord 0x20000000 = false ∧ ([] : List Word).length ≠ operandsNeeded 0x20000000 := by
  decide

theorem witness_BadChannelFaults :
    (offered twoFrames 0x10020005 []).running ∧
    (offered twoFrames 0x10020005 []).inputs = .command 0x10020005 [] :: [] ∧ opOf 0x10020005 = 1 ∧
    illegalWord 0x10020005 = false ∧ ([] : List Word).length = operandsNeeded 0x10020005 ∧
    2 ≤ chOf 0x10020005 := by decide

theorem witness_AppendPastCapFaults :
    ({ fresh 128 16 with wcur0 := 4, wcur1 := 130 } : State).running ∧
    128 < (State.wcur { fresh 128 16 with wcur0 := 4, wcur1 := 130 } .ch1).toNat + 2 ∧
    128 < (State.wcur { fresh 128 16 with wcur0 := 4, wcur1 := 130 } .ch0).toNat + 126 := by decide

/-- 95 V5 with DEST_SIZE = 4: `READ 4, 1` and `READ 0, 5`. -/
theorem witness_ReadPastDestFaults :
    State.running { twoFrames with params := ⟨16, 4⟩ } ∧
    (4 < (1 : Word).toNat + State.copyCount { twoFrames with params := ⟨16, 4⟩ } 4) ∧
    State.copyCount { twoFrames with params := ⟨16, 4⟩ } 0 = 0 := by decide

theorem witness_TransactionReportsFirstFault :
    (∀ w ops, (offered twoFrames w ops).Inv ∧ (offered twoFrames w ops).halted = false ∧
      (offered twoFrames w ops).inputs = .command w ops :: []) ∧
    expectedFault (offered twoFrames 0x40000008 [16]) 0x40000008 [16] = some (.destBounds, 16) ∧
    expectedFault (offered twoFrames 0x40000008 [8]) 0x40000008 [8] = none :=
  ⟨fun w ops => ⟨inv_offered inv_twoFrames w ops, (running_offered w ops).1.2, rfl⟩, by decide,
    by decide⟩

theorem witness_FaultsArePrecise :
    (offered twoFrames 0x40000008 [16]).running ∧
    ∃ t, step (offered twoFrames 0x40000008 [16]) = .next t ∧ t.halted = true :=
  ⟨by decide, _, rfl, by decide⟩

theorem witness_HaltedTakesNothing :
    halted.params.legal = true ∧ halted.fault.toNat % 16 ≠ 0 ∧
    halted.inputs.head? ≠ some .powerOnReset := by decide

theorem witness_FirstFaultIsKept :
    ∃ t, step (offered twoFrames 0x40000008 [16]) = .next t ∧
      t.fault ≠ (offered twoFrames 0x40000008 [16]).fault := ⟨_, rfl, by decide⟩

theorem witness_PowerOnResetEffect :
    ({ halted with inputs := [.powerOnReset] } : State).params.legal = true ∧
    ({ halted with inputs := [.powerOnReset] } : State).inputs = .powerOnReset :: [] := by decide

theorem witness_PowerOnResetKeepsThePorts :
    ({ halted with inputs := [.powerOnReset] } : State).inputs = .powerOnReset :: [] ∧
    ∃ t, step { halted with inputs := [.powerOnReset] } = .next t := ⟨rfl, _, rfl⟩

/-- A READ of bytes never written, and a block with a NaN. -/
theorem witness_DrawsAreCounted :
    (∃ t, exec (.read 4 0) { fresh 16 16 with wcur0 := 4, wend := 4 } = .next t ∧
      t.halted = false) ∧
    ∃ t, exec (.appendB 0 (0x7FC00000 :: List.replicate 31 0)) (fresh 128 16) = .next t ∧
      t.halted = false := ⟨⟨_, rfl, by decide⟩, _, rfl, rfl⟩

/-- The last slot of channel 1. -/
theorem witness_AppendSEffect :
    opOf 0x10017FFF = 1 ∧ State.running { fresh 16 16 with wcur1 := 14 } ∧
    (State.wcur { fresh 16 16 with wcur1 := 14 } .ch1).toNat + 2 ≤ 16 := by decide

/-- The last slots of channel 1, with a NaN among the samples. -/
theorem witness_AppendBEffect :
    opOf 0x20010000 = 2 ∧ State.running { fresh 132 16 with wcur1 := 6 } ∧
    (0x7FC00000 :: List.replicate 31 (0 : Word)).length = 32 ∧
    (State.wcur { fresh 132 16 with wcur1 := 6 } .ch1).toNat + 126 ≤ 132 := by decide

theorem witness_ShortBlockFaults :
    (fresh 16 16).running ∧ (Instr.appendB 0 [0]).wellFormed = false := by decide

theorem witness_AppendTouchesOwnSlotsOnly :
    twoFrames.Inv ∧ (∃ v, Instr.appendS 1 5 = .appendS (channelNumber .ch1) v) ∧
    ∃ t, exec (.appendS 1 5) twoFrames = .next t := ⟨inv_twoFrames, ⟨5, rfl⟩, _, rfl⟩

theorem witness_ToSampleIsClampThenTruncate :
    isNaN 0x7F800000 = false ∧ isNaN 0xC6FFFF00 = false := by decide

theorem witness_TruncateThenClampAgrees :
    (0xC6FFFF00#32 : Word).toNat / 2 ^ 23 % 256 ≠ 255 ∧
    (0x7F7FFFFF#32 : Word).toNat / 2 ^ 23 % 256 ≠ 255 := by decide

theorem witness_ToSampleOfNaNIsDraw : isNaN 0x7F800001 = true ∧ isNaN 0xFFFFFFFF = true := by decide

/-- Each channel filled to CAP / 4 samples, by single and by block appends. -/
theorem witness_AppendsInterleave :
    (fresh 132 16).running ∧ (fresh 132 16).wcur0 = 0 ∧ (fresh 132 16).wcur1 = 2 ∧
    (∀ i ∈ [Instr.appendS 0 1, .appendB 1 (List.replicate 32 0), .appendS 1 2], isAppend i) ∧
    ∀ c, (allSlots c [.appendS 0 1, .appendB 1 (List.replicate 32 0), .appendS 1 2]).length ≤
      (fresh 132 16).params.frames := by
  refine ⟨by decide, rfl, rfl, ?_, fun c => ?_⟩
  · simp [isAppend]
  · cases c <;> simp [allSlots, slotsOf, channelNumber, fresh, State.powerOn, Params.frames]

theorem witness_FinalizeEffect : opOf 0x30000000 = 3 ∧ twoFrames.running := by decide

theorem witness_CopyCountProperties : twoFrames.Inv := inv_twoFrames

/-- The destination range ends at DEST_SIZE. -/
theorem witness_ReadEffect :
    opOf 0x40000064 = 4 ∧ twoFrames.running ∧ 8 = twoFrames.copyCount 100 ∧
    (8 : Word).toNat + 8 ≤ twoFrames.params.destSize := by decide

theorem witness_AvailEffect :
    opOf 0x60000000 = 6 ∧ twoFrames.running ∧ twoFrames.rcur.toNat ≤ twoFrames.wend.toNat := by
  decide

/-- 95 P1, lines 7 and 8. -/
theorem witness_ReadsInPartsDeliverTheSame :
    twoFrames.Inv ∧ twoFrames.halted = false ∧ 4 = twoFrames.copyCount (7#28).toNat ∧
    4 = State.copyCount { twoFrames with rcur := twoFrames.rcur + BitVec.ofNat 32 4 }
      (100#28).toNat ∧
    (4 : Word).toNat = (0 : Word).toNat + 4 ∧
    (0 : Word).toNat + 4 + 4 ≤ twoFrames.params.destSize :=
  ⟨inv_twoFrames, by decide, by decide, by decide, by decide, by decide⟩

theorem witness_StoreReadValue :
    twoFrames.store.read 7 = some 0x7F ∧ twoFrames.written 8 = false := by decide

theorem witness_CompleteFramesAreDelivered :
    twoFrames.Inv ∧ twoFrames.halted = false ∧
    twoFrames.wend.toNat + 2 ≤ twoFrames.wcur1.toNat ∧ 8 = twoFrames.copyCount (8#28).toNat ∧
    (8 : Word).toNat + 8 ≤ twoFrames.params.destSize :=
  ⟨inv_twoFrames, by decide, by decide, by decide, by decide⟩

theorem witness_ResetEffect : opOf 0x50000000 = 5 ∧ twoFrames.running := by decide

/-- The smallest and the largest parameters. -/
theorem witness_InvariantAtPowerOn :
    (⟨4, 0⟩ : Params).legal = true ∧ (⟨2 ^ 27, 2 ^ 32⟩ : Params).legal = true ∧
    Memory.wf [(3, 7)] = true ∧ Memory.within (2 ^ 32) [(3, 7)] = true := by decide

theorem witness_StepKeepsInvariant :
    (offered twoFrames 0x10010005 []).Inv ∧
    ∃ t, step (offered twoFrames 0x10010005 []) = .next t :=
  ⟨inv_offered inv_twoFrames _ _, _, rfl⟩

theorem witness_CursorRangesWhenReached : Reachable (fresh 16 16) :=
  .powerOn ⟨16, 16⟩ [] [] (by decide) (by decide) (by decide)

theorem witness_WriteCursorChanges :
    (∃ t, exec (.appendS 0 1) twoFrames = .next t ∧ t.wcur .ch0 ≠ twoFrames.wcur .ch0) ∧
    ∃ t, exec .reset twoFrames = .next t ∧ t.wcur .ch1 ≠ twoFrames.wcur .ch1 :=
  ⟨⟨_, rfl, by decide⟩, _, rfl, by decide⟩

theorem witness_ReadCursorChanges :
    (∃ t, exec .finalize twoFrames = .next t) ∧ (∃ t, exec .reset twoFrames = .next t) ∧
    (∃ t, exec (.read 4 0) twoFrames = .next t ∧ t.halted = false) ∧
    (∃ t, exec (.read 4 13) twoFrames = .next t ∧ t.halted = true) ∧
    ∃ t, exec .avail twoFrames = .next t :=
  ⟨⟨_, rfl⟩, ⟨_, rfl⟩, ⟨_, rfl, by decide⟩, ⟨_, rfl, by decide⟩, _, rfl⟩

theorem witness_WriteEndChanges :
    (∃ t, exec .finalize twoFrames = .next t) ∧ (∃ t, exec .reset twoFrames = .next t) ∧
    ∃ t, exec (.appendS 1 1) twoFrames = .next t := ⟨⟨_, rfl⟩, ⟨_, rfl⟩, _, rfl⟩

theorem witness_StoreChangedByAppendsOnly :
    ∃ t, step (offered twoFrames 0x10010005 []) = .next t ∧
      t.store.read 11 ≠ (offered twoFrames 0x10010005 []).store.read 11 := ⟨_, rfl, by decide⟩

theorem witness_DestChangedByReadOnly :
    ∃ t, step (offered twoFrames 0x40000004 [12]) = .next t ∧
      t.dest.read 15 ≠ (offered twoFrames 0x40000004 [12]).dest.read 15 := ⟨_, rfl, by decide⟩

theorem witness_ResponsesOfCommands :
    twoFrames.rcur.toNat ≤ twoFrames.wend.toNat ∧
    (∃ t, exec .avail twoFrames = .next t ∧ t.halted = false) ∧
    ∃ t, exec (.read 4 13) twoFrames = .next t ∧ t.halted = true :=
  ⟨by decide, ⟨_, rfl, by decide⟩, _, rfl, by decide⟩

/-- Two stores that differ at WEND. -/
theorem witness_UnreadableBytesStayHidden :
    (∀ a, twoFrames.rcur.toNat ≤ a → a < twoFrames.wend.toNat →
      (twoFrames.store.write 8 1).read a = twoFrames.store.read a) ∧
    ∃ s', step (offered twoFrames 0x40000064 [0]) = .next s' := by
  refine ⟨fun a _ h => ?_, _, rfl⟩
  have : a < 8 := h
  revert a
  decide

/-- A state with room in DEST, and for each form of line its values at the ends of their ranges. -/
theorem witness_PseudoInstructions :
    (twoFrames.Inv ∧ twoFrames.halted = false ∧ 8 = twoFrames.wend.toNat - twoFrames.rcur.toNat ∧
      (8 : Word).toNat + 8 ≤ twoFrames.params.destSize) ∧
    assemble (.drain 0xFFFFFFFF) = some [.read 0x0FFFFFFF 0xFFFFFFFF] ∧
    assemble (.drain 0x100000000) = none ∧
    assemble (.appendPair (.signed (-32768)) (.signed 32767)) =
      some [.appendS 0 0x8000, .appendS 1 0x7FFF] ∧
    assemble (.appendPair (.signed 0) (.signed 32768)) = none ∧
    assemble (.appendPair (.pattern 0xFFFF) (.pattern 0)) =
      some [.appendS 0 0xFFFF, .appendS 1 0] ∧
    assemble (.appendPair (.pattern 0x10000) (.signed 0)) = none :=
  ⟨⟨inv_twoFrames, by decide, by decide, by decide⟩, by decide, by decide, by decide, by decide,
    by decide, by decide⟩

/-- Literals that assemble, a tie and a negative zero among them, and the first literal refused. -/
theorem witness_AssembleRoundsToNearestEven :
    (assembleSample (.decimal false 16777217 0)).isSome = true ∧
    (assembleSample (.decimal true 0 0)).isSome = true ∧
    assembleSample (.decimal false ((2 ^ 25 - 1) * 2 ^ 103) 0) = none := by decide

theorem witness_AssembleExactValues :
    (0xC71C4000#32 : Word).toNat / 2 ^ 23 % 256 ≠ 255 ∧
    (0x00000001#32 : Word).toNat / 2 ^ 23 % 256 ≠ 255 := by decide

end Sys2Proof.Tests
end

section
/-! PROOFS. What a command answers, said once for all six commands, and from it what each command does to the
cursors (10_state.md section 3); the state after power-on (10_state.md R27). -/

namespace Sys2Proof.Machine

open Sys2Proof.Safety

/-! ### Channels, the guard and the bounds -/

/-- The CH field that names a channel is that channel's number (30_encoding.md R46). -/
theorem channelOf?_eq_some_iff_channelNumber {ch : BitVec 4} {c : Channel} :
    channelOf? ch = some c ↔ ch = channelNumber c := by
  revert ch
  cases c <;> decide

@[simp] theorem channelOf?_channelNumber (c : Channel) : channelOf? (channelNumber c) = some c :=
  channelOf?_eq_some_iff_channelNumber.mpr rfl

theorem ofNat_channelOffset_toNat (c : Channel) :
    (BitVec.ofNat 32 (channelOffset c)).toNat = channelStart c := by
  cases c <;> rfl

theorem Params.cap_le_of_legal {p : Params} (h : p.legal = true) : p.cap ≤ 2 ^ 27 := by
  simp only [Params.legal, decide_eq_true_eq] at h
  exact h.2.1

/-- RCUR does not wrap in a READ: it stays at or below WEND, or nothing is copied. -/
theorem State.rcur_add_copyCount_toNat (s : State) (m : Nat) :
    (s.rcur + BitVec.ofNat 32 (s.copyCount m)).toNat = s.rcur.toNat + s.copyCount m := by
  have hle : s.copyCount m ≤ s.wend.toNat - s.rcur.toNat := s.copyCount_le_available m
  have hrcur := s.rcur.isLt
  have hwend := s.wend.isLt
  rw [BitVec.toNat_add, BitVec.toNat_ofNat]
  omega

/-! ### The registers that the loops leave unchanged -/

@[simp] theorem State.writeBlock_rcur (s : State) (a : Nat) (fs : List Word) :
    (s.writeBlock a fs).rcur = s.rcur := by rw [State.writeBlock_eq]

@[simp] theorem State.writeBlock_wend (s : State) (a : Nat) (fs : List Word) :
    (s.writeBlock a fs).wend = s.wend := by rw [State.writeBlock_eq]

@[simp] theorem State.writeBlock_wcur (s : State) (a : Nat) (fs : List Word) (c : Channel) :
    (s.writeBlock a fs).wcur c = s.wcur c := by
  rw [State.writeBlock_eq]
  cases c <;> rfl

@[simp] theorem State.copyOut_wend (s : State) (src dst n : Nat) :
    (s.copyOut src dst n).wend = s.wend := by rw [State.copyOut_eq]

@[simp] theorem State.copyOut_wcur (s : State) (src dst n : Nat) (c : Channel) :
    (s.copyOut src dst n).wcur c = s.wcur c := by
  rw [State.copyOut_eq]
  cases c <;> rfl

@[simp] theorem State.copyOut_halted (s : State) (src dst n : Nat) :
    (s.copyOut src dst n).halted = s.halted := by
  rw [State.copyOut_eq]
  rfl

/-! ### What a command answers -/

/-- The faults a command meets in the state `s`, with the cause and what FAULT_ADDR records
(60_exceptions.md R78, R83). -/
inductive CommandFaults (s : State) : Instr → Cause → Word → Prop where
  | appendS_channel {ch : BitVec 4} {v : Sample} (hch : channelOf? ch = none) :
      CommandFaults s (.appendS ch v) .badChannel 0
  | appendS_overflow {c : Channel} {v : Sample} (hcap : s.params.cap < (s.wcur c).toNat + 2) :
      CommandFaults s (.appendS (channelNumber c) v) .writeOverflow (s.wcur c)
  | appendB_length {ch : BitVec 4} {fs : List Word} (hlen : fs.length ≠ 32) :
      CommandFaults s (.appendB ch fs) .badLength 0
  | appendB_channel {ch : BitVec 4} {fs : List Word} (hlen : fs.length = 32)
      (hch : channelOf? ch = none) : CommandFaults s (.appendB ch fs) .badChannel 0
  | appendB_overflow {c : Channel} {fs : List Word} (hlen : fs.length = 32)
      (hcap : s.params.cap < (s.wcur c).toNat + 126) :
      CommandFaults s (.appendB (channelNumber c) fs) .writeOverflow (s.wcur c)
  | read_bounds {m : BitVec 28} {d : Word}
      (hdest : s.params.destSize < d.toNat + s.copyCount m.toNat) :
      CommandFaults s (.read m d) .destBounds d

/-- What a command leaves of a running state `s`: the fault it meets, or its effect. -/
inductive CommandResult (s : State) : Instr → State → Prop where
  | faults {i : Instr} {cause : Cause} {addr : Word} (hfault : CommandFaults s i cause addr) :
      CommandResult s i (s.raiseFault (commandWord i) cause addr)
  | appendS {c : Channel} {v : Sample} (hcap : (s.wcur c).toNat + 2 ≤ s.params.cap) :
      CommandResult s (.appendS (channelNumber c) v)
        ((s.writeSample (s.wcur c).toNat v).setWcur c (s.wcur c + 4))
  | appendB {c : Channel} {fs : List Word} (hlen : fs.length = 32)
      (hcap : (s.wcur c).toNat + 126 ≤ s.params.cap) :
      CommandResult s (.appendB (channelNumber c) fs)
        ((s.writeBlock (s.wcur c).toNat fs).setWcur c (s.wcur c + 128))
  | finalize : CommandResult s .finalize { s with wend := s.wcur0, rcur := 0 }
  | read {m : BitVec 28} {d : Word} (hdest : d.toNat + s.copyCount m.toNat ≤ s.params.destSize) :
      CommandResult s (.read m d)
        (State.respond
          { s.copyOut s.rcur.toNat d.toNat (s.copyCount m.toNat) with
            rcur := s.rcur + BitVec.ofNat 32 (s.copyCount m.toNat) }
          (BitVec.ofNat 32 (s.copyCount m.toNat)))
  | reset : CommandResult s .reset s.startCursors
  | avail : CommandResult s .avail (s.respond (BitVec.ofNat 32 s.bytesAvailable))

theorem execAppendS_result {ch : BitVec 4} {v : Sample} {s t : State}
    (h : execAppendS ch v s = .next t) : CommandResult s (.appendS ch v) t := by
  obtain ⟨-, h⟩ := State.whenRunning_next h
  split at h
  case h_1 hch =>
    cases h
    exact .faults (.appendS_channel hch)
  case h_2 c hch =>
    obtain rfl := channelOf?_eq_some_iff_channelNumber.mp hch
    split at h
    case isTrue hcap =>
      cases h
      exact .faults (.appendS_overflow hcap)
    case isFalse hcap =>
      cases h
      exact .appendS (Nat.le_of_not_lt hcap)

theorem execAppendB_result {ch : BitVec 4} {fs : List Word} {s t : State}
    (h : execAppendB ch fs s = .next t) : CommandResult s (.appendB ch fs) t := by
  obtain ⟨-, h⟩ := State.whenRunning_next h
  split at h
  case isTrue hlen =>
    cases h
    exact .faults (.appendB_length hlen)
  case isFalse hlen =>
    have hlen := Decidable.not_not.mp hlen
    split at h
    case h_1 hch =>
      cases h
      exact .faults (.appendB_channel hlen hch)
    case h_2 c hch =>
      obtain rfl := channelOf?_eq_some_iff_channelNumber.mp hch
      split at h
      case isTrue hcap =>
        cases h
        exact .faults (.appendB_overflow hlen hcap)
      case isFalse hcap =>
        cases h
        exact .appendB hlen (Nat.le_of_not_lt hcap)

theorem execRead_result {m : BitVec 28} {d : Word} {s t : State}
    (h : execRead m d s = .next t) : CommandResult s (.read m d) t := by
  obtain ⟨-, h⟩ := State.whenRunning_next h
  dsimp only at h
  split at h
  case isTrue hdest =>
    cases h
    exact .faults (.read_bounds hdest)
  case isFalse hdest =>
    cases h
    exact .read (Nat.le_of_not_lt hdest)

/-- A command that answers a state was run in a running ISB. -/
theorem running_of_exec {i : Instr} {s t : State} (h : exec i s = .next t) : s.running := by
  cases i <;> exact (State.whenRunning_next h).1

theorem exec_result {i : Instr} {s t : State} (h : exec i s = .next t) : CommandResult s i t := by
  cases i with
  | appendS ch v => exact execAppendS_result h
  | appendB ch fs => exact execAppendB_result h
  | finalize =>
    obtain ⟨-, ⟨⟩⟩ := State.whenRunning_next h
    exact .finalize
  | read m d => exact execRead_result h
  | reset =>
    obtain ⟨-, ⟨⟩⟩ := State.whenRunning_next h
    exact .reset
  | avail =>
    obtain ⟨-, ⟨⟩⟩ := State.whenRunning_next h
    exact .avail

theorem exec_of_fault {i : Instr} {s : State} {cause : Cause} {addr : Word} (hrun : s.running)
    (h : CommandFaults s i cause addr) :
    exec i s = .next (s.raiseFault (commandWord i) cause addr) := by
  have hguard := fun k => s.whenRunning_of_running k hrun
  cases h with
  | appendS_channel hch => simp [exec, execAppendS, hguard, hch]
  | appendS_overflow hcap => simp [exec, execAppendS, hguard, hcap]
  | appendB_length hlen => simp [exec, execAppendB, hguard, hlen]
  | appendB_channel hlen hch => simp [exec, execAppendB, hguard, hlen, hch]
  | appendB_overflow hlen hcap => simp [exec, execAppendB, hguard, hlen, hcap]
  | read_bounds hdest => simp [exec, execRead, hguard, hdest]

theorem exec_of_result {i : Instr} {s t : State} (hrun : s.running) (h : CommandResult s i t) :
    exec i s = .next t := by
  have hguard := fun k => s.whenRunning_of_running k hrun
  cases h with
  | faults hfault => exact exec_of_fault hrun hfault
  | appendS hcap => simp [exec, execAppendS, hguard, Nat.not_lt.mpr hcap]
  | appendB hlen hcap => simp [exec, execAppendB, hguard, hlen, Nat.not_lt.mpr hcap]
  | read hdest => simp [exec, execRead, hguard, Nat.not_lt.mpr hdest]
  | finalize => exact hguard _
  | reset => exact hguard _
  | avail => exact hguard _

/-- What a command answers: a next state exactly in a running ISB, and then one that `CommandResult` gives. -/
theorem exec_eq_next_iff {i : Instr} {s t : State} :
    exec i s = .next t ↔ s.running ∧ CommandResult s i t :=
  ⟨fun h => ⟨running_of_exec h, exec_result h⟩, fun ⟨hrun, h⟩ => exec_of_result hrun h⟩

/-! ### The cursors -/

/-- Only the cursor that is set changes. -/
theorem State.eq_of_setWcur_wcur_ne {s : State} {c d : Channel} {v w : Word} (hw : s.wcur c = w)
    (h : (s.setWcur d v).wcur c ≠ w) : c = d :=
  Decidable.byContradiction fun hcd => h ((s.setWcur_wcur_other v hcd).trans hw)

/-- A write cursor below CAP does not wrap where an append raises it (00_scope.md R5). -/
theorem State.wcur_add_toNat {s : State} (hrun : s.running) {c : Channel} {k : Word}
    (hcap : (s.wcur c).toNat ≤ s.params.cap) (hk : k.toNat ≤ 128) :
    (s.wcur c + k).toNat = (s.wcur c).toNat + k.toNat := by
  have := Params.cap_le_of_legal hrun.1
  exact BitVec.toNat_add_of_lt (by omega)

/-- Settles O44: of what a command can answer, a case at a time, only the two appends and RESET touch a write
cursor, and an append's check against CAP keeps the sum from wrapping. -/
theorem writeCursorChanges : Obligations.WriteCursorChanges := by
  intro i s t c h hne
  obtain ⟨hrun, hres⟩ := exec_eq_next_iff.mp h
  cases hres with
  | faults _ => exact absurd (State.raiseFault_wcur ..) hne
  | @appendS d v hcap =>
    obtain rfl : c = d := State.eq_of_setWcur_wcur_ne (State.writeSample_wcur ..) hne
    refine .inl ⟨⟨v, rfl⟩, ?_⟩
    rw [State.setWcur_wcur_same]
    exact State.wcur_add_toNat hrun (by omega) (by decide)
  | @appendB d fs hlen hcap =>
    obtain rfl : c = d := State.eq_of_setWcur_wcur_ne (State.writeBlock_wcur ..) hne
    refine .inr (.inl ⟨⟨fs, rfl⟩, ?_⟩)
    rw [State.setWcur_wcur_same]
    exact State.wcur_add_toNat hrun (by omega) (by decide)
  | finalize => exact absurd (by cases c <;> rfl) hne
  | read _ => exact absurd (State.copyOut_wcur s _ _ _ c) (by cases c <;> exact hne)
  | reset => exact .inr (.inr ⟨rfl, by rw [State.startCursors_wcur, ofNat_channelOffset_toNat]⟩)
  | avail => exact absurd (by cases c <;> rfl) hne

/-- Settles O45: a faulting READ leaves the ISB halted with RCUR as it was; one that completes leaves it running
with RCUR raised by the bytes copied, which does not wrap. -/
theorem readCursorChanges : Obligations.ReadCursorChanges := by
  intro i s t h
  obtain ⟨⟨-, hhalted⟩, hres⟩ := exec_eq_next_iff.mp h
  cases hres with
  | faults hfault => cases hfault <;> simp
  | appendS _ => simp
  | appendB _ _ => simp
  | finalize => rfl
  | @read m d _ =>
    change (s.rcur + BitVec.ofNat 32 (s.copyCount m.toNat)).toNat = s.rcur.toNat +
      if (s.copyOut s.rcur.toNat d.toNat (s.copyCount m.toNat)).halted then 0
      else s.copyCount m.toNat
    rw [State.copyOut_halted, hhalted, State.rcur_add_copyCount_toNat]
    rfl
  | reset => rfl
  | avail => rfl

/-- Settles O46: the loops of the appends and of READ, and a fault, leave WEND unchanged. -/
theorem writeEndChanges : Obligations.WriteEndChanges := by
  intro i s t h
  cases exec_result h with
  | faults hfault => cases hfault <;> rfl
  | appendS _ => rfl
  | appendB _ _ => exact State.writeBlock_wend ..
  | finalize => rfl
  | read _ => exact State.copyOut_wend ..
  | reset => rfl
  | avail => rfl

/-! ### Power-on -/

/-- Settles O22: the sizes, the destination memory and the inputs are all that power-on takes from outside; the
rest is `State.reset`, with an empty store. -/
theorem powerOnState : Obligations.PowerOnState := by
  intro p dest inputs
  rw [State.powerOn_eq]
  exact ⟨rfl, rfl, rfl, rfl, rfl, rfl, fun _ => rfl⟩

end Sys2Proof.Machine
end

section
/-! PROOFS. The checks of decoding in the order of 30_encoding.md R55, said once for every word and operand list,
and from them the faults of malformed transactions; the words on the response port (30_encoding.md R47). -/

namespace Sys2Proof.Machine

open Sys2Proof.Safety

/-! ### Words that name no command -/

/-- OP 0 and 7 to 15 are reserved (30_encoding.md R50). -/
theorem illegalWord_of_reserved_op {w : Word} (h : opOf w = 0 ∨ 7 ≤ opOf w) :
    illegalWord w = true := by
  have hdefined : ∀ n, 1 ≤ n → n ≤ 6 → opOf w ≠ n := by omega
  simp [illegalWord, hdefined]

/-- The reserved fields of the formats S, B and N (30_encoding.md R46, R51). -/
theorem illegalWord_of_reserved_field {w : Word}
    (h : (opOf w = 1 ∧ (w.toNat / 2 ^ 20) % 2 ^ 8 ≠ 0) ∨
      (opOf w = 2 ∧ ((w.toNat / 2 ^ 20) % 2 ^ 8 ≠ 0 ∨ w.toNat % 2 ^ 16 ≠ 0)) ∨
      ((opOf w = 3 ∨ opOf w = 5 ∨ opOf w = 6) ∧ w.toNat % 2 ^ 28 ≠ 0)) :
    illegalWord w = true := by
  obtain ⟨hop, hfield⟩ | ⟨hop, hfield⟩ | ⟨hop, hfield⟩ := h
  · simpa [illegalWord, hop] using hfield
  · simpa [illegalWord, hop] using hfield
  · obtain hop | hop | hop := hop <;> simpa [illegalWord, hop] using hfield

/-- READ has no reserved field (30_encoding.md R51). -/
theorem illegalWord_of_read {w : Word} (hop : opOf w = 4) : illegalWord w = false := by
  simp [illegalWord, hop]

/-! ### The checks of decoding -/

/-- What `decodeN` checks, with its reserved bits [27:0] as a number (30_encoding.md R51). -/
theorem decodeN_eq (w : Word) (ops : List Word) (i : Instr) :
    decodeN w ops i =
      if w.toNat % 2 ^ 28 ≠ 0 then .error .illegalCommand else withLength (ops.length == 0) i := by
  simp only [decodeN, ne_eq, maxCountField_eq_zero]
  cases ops <;> rfl

/-- Every transaction meets the two checks of `decode` in this order: that its word names a command, and that the
operand count is the opcode's (30_encoding.md R55; 60_exceptions.md R83). -/
theorem exists_decode_eq (w : Word) (ops : List Word) :
    ∃ i, decode w ops =
      if illegalWord w then .error .illegalCommand
      else withLength (ops.length == operandsNeeded w) i := by
  unfold decode
  rw [opField_toNat]
  split
  case h_1 hop =>
    refine ⟨.appendS (chField w) (valueField w), ?_⟩
    simp only [ne_eq, reservedHigh_eq_zero, illegalWord, operandsNeeded, hop]
    cases ops <;> simp
  case h_2 hop =>
    refine ⟨.appendB (chField w) ops, ?_⟩
    simp only [ne_eq, reservedHigh_eq_zero, valueField_eq_zero, illegalWord, operandsNeeded, hop]
    simp
  case h_3 hop => exact ⟨.finalize, by simp [decodeN_eq, illegalWord, operandsNeeded, hop]⟩
  case h_4 hop =>
    refine ⟨.read (maxCountField w) (ops.headD 0), ?_⟩
    simp only [illegalWord, operandsNeeded, hop]
    match ops with
    | [] => rfl
    | [_] => rfl
    | _ :: _ :: _ => simp [withLength]
  case h_5 hop => exact ⟨.reset, by simp [decodeN_eq, illegalWord, operandsNeeded, hop]⟩
  case h_6 hop => exact ⟨.avail, by simp [decodeN_eq, illegalWord, operandsNeeded, hop]⟩
  case h_7 h1 h2 h3 h4 h5 h6 =>
    have hop : opOf w = 0 ∨ 7 ≤ opOf w := by grind
    have hill : illegalWord w = true := illegalWord_of_reserved_op hop
    exact ⟨.avail, by rw [hill]; rfl⟩

theorem decode_of_illegalWord {w : Word} (ops : List Word) (hill : illegalWord w = true) :
    decode w ops = .error .illegalCommand := by
  obtain ⟨i, hdec⟩ := exists_decode_eq w ops
  simpa [hill] using hdec

theorem decode_of_wrong_count {w : Word} {ops : List Word} (hill : illegalWord w = false)
    (hlen : ops.length ≠ operandsNeeded w) : decode w ops = .error .badLength := by
  obtain ⟨i, hdec⟩ := exists_decode_eq w ops
  simpa [hill, hlen, withLength] using hdec

theorem exists_decode_eq_ok {w : Word} {ops : List Word} (hill : illegalWord w = false)
    (hlen : ops.length = operandsNeeded w) : ∃ i, decode w ops = .ok i := by
  obtain ⟨i, hdec⟩ := exists_decode_eq w ops
  exact ⟨i, by simpa [hill, hlen, withLength] using hdec⟩

/-! ### The step that takes a malformed transaction -/

/-- A transaction that decodes to no command is taken off the port and changes only the fault registers, with no
address recorded (60_exceptions.md R78, R80). -/
theorem step_of_decode_error {s : State} {w : Word} {ops : List Word} {rest : List HostInput}
    {c : Cause} (hrun : s.running) (hin : s.inputs = .command w ops :: rest)
    (hdec : decode w ops = .error c) :
    step s = .next (faulted { s with inputs := rest } w c 0) := by
  have hstep : step s = rejectCommand w c { s with inputs := rest } := by
    simp only [step, hin, hdec]
  have hrun' : ({ s with inputs := rest } : State).running := hrun
  rw [hstep, rejectCommand, State.whenRunning_of_running _ hrun', raiseFault_eq_faulted]

/-- Settles O10: a reserved OP fails the first check of decoding. -/
theorem reservedOpcodeFaults : Obligations.ReservedOpcodeFaults := by
  intro s w ops rest hrun hin hop
  have hdec := decode_of_illegalWord ops (illegalWord_of_reserved_op hop)
  exact ⟨fun i hok => (nomatch hdec.symm.trans hok), step_of_decode_error hrun hin hdec⟩

/-- Settles O11: a nonzero reserved field fails the first check of decoding, and a READ word with its one operand
word passes both. -/
theorem reservedFieldFaults : Obligations.ReservedFieldFaults := by
  intro s w ops rest hrun hin
  refine ⟨fun hfield => ?_, ?_⟩
  · exact step_of_decode_error hrun hin
      (decode_of_illegalWord ops (illegalWord_of_reserved_field hfield))
  · rintro hop destOff rfl
    exact exists_decode_eq_ok (illegalWord_of_read hop) (by simp [operandsNeeded, hop])

/-- Settles O12: the count of the operand words is the second check of decoding. -/
theorem wrongOperandCountFaults : Obligations.WrongOperandCountFaults :=
  fun _ _ _ _ hrun hin hill hlen =>
    step_of_decode_error hrun hin (decode_of_wrong_count hill hlen)

/-! ### The response port -/

@[simp] theorem State.writeBlock_responses (s : State) (a : Nat) (fs : List Word) :
    (s.writeBlock a fs).responses = s.responses := by rw [State.writeBlock_eq]

@[simp] theorem State.writeBlock_halted (s : State) (a : Nat) (fs : List Word) :
    (s.writeBlock a fs).halted = s.halted := by
  rw [State.writeBlock_eq]
  rfl

@[simp] theorem State.copyOut_responses (s : State) (src dst n : Nat) :
    (s.copyOut src dst n).responses = s.responses := by rw [State.copyOut_eq]

/-- Where RCUR is at most WEND, the bytes available are the difference of the two registers as words
(10_state.md R21). -/
theorem State.ofNat_bytesAvailable {s : State} (h : s.rcur.toNat ≤ s.wend.toNat) :
    BitVec.ofNat 32 s.bytesAvailable = s.wend - s.rcur := by
  rw [State.bytesAvailable, ← BitVec.toNat_sub_of_le h, BitVec.ofNat_toNat, BitVec.setWidth_eq]

/-- Settles O49: a fault leaves the ISB halted and the port as it was; of the commands that complete, which leave
the ISB running, only READ and AVAIL deliver a word. -/
theorem responsesOfCommands : Obligations.ResponsesOfCommands := by
  intro i s t hle h
  obtain ⟨⟨-, hhalted⟩, hres⟩ := exec_eq_next_iff.mp h
  cases hres with
  | faults _ => simp
  | appendS _ => simp [hhalted]
  | appendB _ _ => simp [hhalted]
  | finalize => simp
  | @read m d _ =>
    change (s.copyOut s.rcur.toNat d.toNat (s.copyCount m.toNat)).responses ++ _ =
      s.responses ++ if (s.copyOut s.rcur.toNat d.toNat (s.copyCount m.toNat)).halted then []
        else [BitVec.ofNat 32 (s.copyCount m.toNat)]
    rw [State.copyOut_responses, State.copyOut_halted, hhalted]
    rfl
  | reset => simp [hhalted]
  | avail => simp [hhalted, State.ofNat_bytesAvailable hle]

end Sys2Proof.Machine
end

section
/-! PROOFS. The appends: the fault of an append past CAP, the slots an append touches (40_append.md section 3), and the
value ToSample gives a block sample over the rationals (40_append.md section 4). -/

namespace Sys2Proof.Machine

open Sys2Proof.Safety

/-! ### Reading a binary32 pattern -/

theorem binary32Exponent_eq (f : Word) : binary32Exponent f = (f.toNat / 2 ^ 23) % 256 := by
  simp only [binary32Exponent, BitVec.extractLsb'_toNat, Nat.shiftRight_eq_div_pow]

theorem binary32Fraction_eq (f : Word) : binary32Fraction f = f.toNat % 2 ^ 23 := by
  simp [binary32Fraction, BitVec.extractLsb'_toNat]

/-- The model's magnitude, in units of 2^-149, is exactly the value of the pattern (93 G1): the power of a normal
pattern's exponent field `k + 1` is 2^(k - 126), and 2^-126 of a fraction's unit 2^-23 is one 2^-149. -/
theorem binary32Value_eq_magnitude (f : Word) :
    binary32Value f =
      (if binary32Sign f then -1 else 1) * (binary32Magnitude f : ℚ) / 2 ^ 149 := by
  rw [binary32Sign]
  simp only [binary32Value, binary32Magnitude, ← binary32Exponent_eq, ← binary32Fraction_eq]
  generalize (if f.getLsbD 31 then -1 else 1 : ℚ) = sign
  cases binary32Exponent f with
  | zero =>
    have hpow : (2 : ℚ) ^ (-126 : ℤ) = 1 / 2 ^ 126 := by norm_num
    simp only [if_true, hpow]
    ring
  | succ k =>
    have hpow : (2 : ℚ) ^ (((k + 1 : ℕ) : ℤ) - 127) = 2 ^ k / 2 ^ 126 := by
      rw [show ((k + 1 : ℕ) : ℤ) - 127 = (k : ℤ) - (126 : ℕ) by push_cast; ring,
        zpow_sub₀ two_ne_zero, zpow_natCast, zpow_natCast]
    simp only [Nat.succ_ne_zero, if_false, hpow, Nat.add_sub_cancel]
    push_cast
    ring

theorem readBinary32_of_finite {f : Word} (hexp : (f.toNat / 2 ^ 23) % 256 ≠ 255) :
    ∃ z : ℤ, readBinary32 f = .finite z ∧ binary32Value f = (z : ℚ) / 2 ^ 149 := by
  refine ⟨_, if_neg (binary32Exponent_eq f ▸ hexp), ?_⟩
  rw [binary32Value_eq_magnitude]
  cases binary32Sign f <;> simp

theorem readBinary32_of_infinity {f : Word} (hexp : (f.toNat / 2 ^ 23) % 256 = 255)
    (hnan : isNaN f = false) : readBinary32 f = .infinity (f.getLsbD 31) := by
  simp only [isNaN, hexp, beq_self_eq_true, Bool.true_and, bne_eq_false_iff_eq] at hnan
  rw [readBinary32, binary32Exponent_eq, if_pos hexp, binary32Fraction_eq, if_pos hnan, binary32Sign]

/-! ### Clamping and truncating -/

theorem clamp_bounds (x : ℚ) : -32767 ≤ clamp x ∧ clamp x ≤ 32767 := by
  unfold clamp
  split
  · norm_num
  · split
    · norm_num
    · constructor <;> linarith

@[simp] theorem trunc_intCast (n : ℤ) : trunc (n : ℚ) = n := by
  simp [trunc]

/-- Truncation toward zero stays between two integers that the number lies between, on either side of 0. -/
theorem trunc_bounds {x : ℚ} {n : ℤ} (hn : 0 ≤ n) (hlow : -(n : ℚ) ≤ x) (hhigh : x ≤ n) :
    -n ≤ trunc x ∧ trunc x ≤ n := by
  unfold trunc
  split
  case isTrue hx =>
    have hfloor : 0 ≤ ⌊x⌋ := Int.floor_nonneg.mpr hx
    have hle : ⌊x⌋ ≤ n := Int.cast_le.mp ((Int.floor_le x).trans hhigh)
    omega
  case isFalse hx =>
    have hceil : ⌈x⌉ ≤ 0 := Int.ceil_le.mpr (by simpa using (not_le.mp hx).le)
    have hle : -n ≤ ⌈x⌉ := by exact_mod_cast hlow.trans (Int.le_ceil x)
    omega

/-- Truncating a quotient of integers is the integer division that rounds toward zero. -/
theorem trunc_div (z : ℤ) {d : ℕ} (hd : 0 < d) : trunc ((z : ℚ) / d) = z.tdiv d := by
  have hd' : (0 : ℚ) < d := Nat.cast_pos.mpr hd
  obtain hz | hz := le_or_gt 0 z
  · have hquot : 0 ≤ (z : ℚ) / d := div_nonneg (Int.cast_nonneg hz) hd'.le
    rw [trunc, if_pos hquot, Rat.floor_intCast_div_natCast, Int.tdiv_eq_ediv_of_nonneg hz]
  · have hquot : ¬ 0 ≤ (z : ℚ) / d :=
      not_le.mpr (div_neg_of_neg_of_pos (Int.cast_lt_zero.mpr hz) hd')
    have hneg : (-z).tdiv d = -z / d := Int.tdiv_eq_ediv_of_nonneg (by omega)
    rw [trunc, if_neg hquot, Rat.ceil_intCast_div_natCast, ← hneg, Int.neg_tdiv, neg_neg]

/-- The model clamps and truncates a finite value exactly (40_append.md R62, R63). -/
theorem clampTrunc_finite (z : ℤ) :
    clampTrunc (.finite z) = some (trunc (clamp ((z : ℚ) / 2 ^ 149))) := by
  have hden : (0 : ℚ) < 2 ^ 149 := by positivity
  have hhigh : (32767 : ℚ) < z / 2 ^ 149 ↔ 32767 * 2 ^ 149 < z := by
    rw [lt_div_iff₀ hden]
    exact_mod_cast Iff.rfl
  have hlow : (z : ℚ) / 2 ^ 149 < -32767 ↔ z < -(32767 * 2 ^ 149) := by
    rw [div_lt_iff₀ hden, neg_mul]
    exact_mod_cast Iff.rfl
  simp only [clampTrunc, clamp, hhigh, hlow]
  split
  · exact congrArg some (trunc_intCast 32767).symm
  · split
    · exact congrArg some (trunc_intCast (-32767)).symm
    · have hdiv := trunc_div z (Nat.two_pow_pos 149)
      rw [Nat.cast_pow, Nat.cast_pow, Nat.cast_ofNat, Nat.cast_ofNat] at hdiv
      rw [hdiv]

/-- A pattern that is not a NaN has a sample, an integer from -32767 to 32767, and it is the one R63 gives. -/
theorem clampTrunc_readBinary32_of_not_nan {f : Word} (hnan : isNaN f = false) :
    ∃ y : ℤ, clampTrunc (readBinary32 f) = some y ∧ sampleOf f = BitVec.ofInt 16 y ∧
      -32767 ≤ y ∧ y ≤ 32767 := by
  by_cases hexp : (f.toNat / 2 ^ 23) % 256 = 255
  · rw [readBinary32_of_infinity hexp hnan, sampleOf, if_pos hexp]
    refine ⟨_, rfl, ?_⟩
    cases f.getLsbD 31 <;> simp
  · obtain ⟨z, hread, hvalue⟩ := readBinary32_of_finite hexp
    obtain ⟨hlow, hhigh⟩ := clamp_bounds ((z : ℚ) / 2 ^ 149)
    rw [hread, sampleOf, if_neg hexp, hvalue]
    exact ⟨_, clampTrunc_finite z, rfl,
      trunc_bounds (n := 32767) (by decide) (by exact_mod_cast hlow) (by exact_mod_cast hhigh)⟩

/-- Settles O28: the model's conversion of a pattern that is not a NaN has a value, so it takes no draw, and 16 bits
hold that value. -/
theorem toSampleIsClampThenTruncate : Obligations.ToSampleIsClampThenTruncate := by
  intro d f hnan
  obtain ⟨y, hy, hsample, hlow, hhigh⟩ := clampTrunc_readBinary32_of_not_nan hnan
  have hint : (BitVec.ofInt 16 y).toInt = y :=
    BitVec.toInt_ofInt_eq_self (by decide) (by omega) (by omega)
  rw [toSample_of_value hy, hsample, hint]
  exact ⟨rfl, hlow, hhigh⟩

/-! ### An append past CAP -/

/-- Settles O14: the check against CAP comes before any write, and what it answers is the state with the fault
recorded. -/
theorem appendPastCapFaults : Obligations.AppendPastCapFaults := by
  intro s c hrun
  constructor
  · intro v hcap
    rw [exec_of_fault hrun (.appendS_overflow hcap), raiseFault_eq_faulted]
    rfl
  · intro fs hlen hcap
    rw [exec_of_fault hrun (.appendB_overflow hlen hcap), raiseFault_eq_faulted]
    rfl

/-! ### The slots an append touches -/

@[simp] theorem channelNumber_inj {c d : Channel} : channelNumber c = channelNumber d ↔ c = d :=
  ⟨fun h => by simpa using congrArg channelOf? h, congrArg channelNumber⟩

theorem State.Inv.wcur_aligned {s : State} (hinv : s.Inv) (c : Channel) :
    (s.wcur c).toNat % 4 = channelStart c := by
  cases c with
  | ch0 => exact hinv.wcur0_aligned
  | ch1 => exact hinv.wcur1_aligned

theorem State.written_eq_of_read_eq {s t : State} {x : Nat} (h : t.store.read x = s.store.read x) :
    t.written x = s.written x :=
  congrArg Option.isSome h

/-- Where the bytes outside `n` slots from WCUR[c] on are as they were, a byte that changed, or was first written, is
in one of these slots, so at an offset of channel `c` (20_memory.md R32). -/
theorem State.Inv.touched_in_own_slots {s t : State} (hinv : s.Inv) {c : Channel} {n : Nat}
    (hother : ∀ x, (∀ k, k < n → x ≠ (s.wcur c).toNat + 4 * k ∧ x ≠ (s.wcur c).toNat + 4 * k + 1) →
      t.store.read x = s.store.read x)
    {x : Nat} (hx : t.store.read x ≠ s.store.read x ∨ t.written x ≠ s.written x) :
    (x % 4 = channelStart c ∨ x % 4 = channelStart c + 1) ∧
      ∃ k, k < n ∧ (x = (s.wcur c).toNat + 4 * k ∨ x = (s.wcur c).toNat + 4 * k + 1) := by
  have hread : t.store.read x ≠ s.store.read x :=
    hx.elim id fun hwritten heq => hwritten (State.written_eq_of_read_eq heq)
  obtain ⟨k, hk, hslot⟩ :
      ∃ k, k < n ∧ (x = (s.wcur c).toNat + 4 * k ∨ x = (s.wcur c).toNat + 4 * k + 1) := by
    by_contra hnone
    push Not at hnone
    exact hread (hother x hnone)
  have haligned := hinv.wcur_aligned c
  have hstart : channelStart c ≤ 2 := by cases c <;> decide
  exact ⟨by omega, k, hk, hslot⟩

theorem State.writeSample_read_other (s : State) {a x : Nat} (v : Sample) (hlow : x ≠ a)
    (hhigh : x ≠ a + 1) : (s.writeSample a v).store.read x = s.store.read x := by
  rw [State.writeSample_store, Memory.read_write_other _ _ hhigh, Memory.read_write_other _ _ hlow]

/-- Settles O27: an append that completes writes one slot or the 32 of its block, and the bytes outside them keep
their values. -/
theorem appendTouchesOwnSlotsOnly : Obligations.AppendTouchesOwnSlotsOnly := by
  intro s t c i hinv hi h
  cases exec_result h with
  | faults _ => exact .inl ⟨raiseFault_halted .., rfl⟩
  | @appendS d v _ =>
    obtain rfl : d = c := by simpa using hi
    refine .inr ⟨rfl, fun e he => ?_, fun x hx => hinv.touched_in_own_slots (fun x hx => ?_) hx⟩
    · rw [State.setWcur_wcur_other _ _ he, State.writeSample_wcur]
    · have hfirst := hx 0 (by simp [allSlots, slotsOf])
      exact State.writeSample_read_other s v hfirst.1 hfirst.2
  | @appendB d fs _ _ =>
    obtain rfl : d = c := by simpa using hi
    refine .inr ⟨?_, fun e he => ?_, fun x hx => hinv.touched_in_own_slots (fun x hx => ?_) hx⟩
    · rw [State.writeBlock_eq]
      rfl
    · rw [State.setWcur_wcur_other _ _ he, State.writeBlock_wcur]
    · exact State.writeBlock_read_other s _ x fs fun k hk =>
        hx k (by simpa [allSlots, slotsOf] using hk)
  | finalize => simp at hi
  | read _ => simp at hi
  | reset => simp at hi
  | avail => simp at hi

end Sys2Proof.Machine
end

section
/-! PROOFS. FINALIZE, READ and AVAIL: their encodings, the effect of each, and the fault of a READ past DEST_SIZE
(41_finalize_read.md). -/

namespace Sys2Proof.Machine

open Sys2Proof.Safety

/-! ### Decoding by opcode -/

/-- Format N has one word for each opcode: the one whose bits [27:0] are 0 (30_encoding.md R48, R51). -/
theorem eq_iff_reserved_eq_zero {w p : Word} (hop : opOf w = opOf p) (hp : p.toNat % 2 ^ 28 = 0) :
    w = p ↔ w.toNat % 2 ^ 28 = 0 := by
  simp only [opOf] at hop
  rw [← BitVec.toNat_inj]
  omega

theorem decodeN_eq_of_opOf {w p : Word} (ops : List Word) (i : Instr) (hop : opOf w = opOf p)
    (hp : p.toNat % 2 ^ 28 = 0) :
    decodeN w ops i =
      if w ≠ p then .error .illegalCommand
      else if ops ≠ [] then .error .badLength else .ok i := by
  simp only [decodeN_eq, ne_eq, eq_iff_reserved_eq_zero hop hp]
  cases ops <;> simp [withLength]

theorem decode_of_op_finalize {w : Word} (ops : List Word) (hop : opOf w = 3) :
    decode w ops = decodeN w ops .finalize := by
  simp only [decode, opField_toNat, hop]

theorem decode_of_op_avail {w : Word} (ops : List Word) (hop : opOf w = 6) :
    decode w ops = decodeN w ops .avail := by
  simp only [decode, opField_toNat, hop]

/-- READ has no reserved field: its word is MAXCOUNT, and its one operand word the destination offset. -/
theorem decode_of_op_read {w : Word} (d : Word) (hop : opOf w = 4) :
    decode w [d] = .ok (.read (maxCountField w) d) := by
  simp only [decode, opField_toNat, hop]

theorem maxCountField_eq_ofNat (w : Word) :
    maxCountField w = BitVec.ofNat 28 (w.toNat % 2 ^ 28) := by
  rw [← maxCountField_toNat, BitVec.ofNat_toNat, BitVec.setWidth_eq]

/-! ### FINALIZE and AVAIL -/

/-- Settles O32: the one word of OP 3 is 0x30000000, and FINALIZE has no fault of its own. -/
theorem finalizeEffect : Obligations.FinalizeEffect := by
  refine ⟨fun w ops hop => ?_, fun s hrun => exec_of_result hrun .finalize⟩
  rw [decode_of_op_finalize ops hop]
  exact decodeN_eq_of_opOf ops .finalize (hop.trans (by decide)) (by decide)

/-- Settles O35: the one word of OP 6 is 0x60000000, and where RCUR is at most WEND the response is their difference
as words. -/
theorem availEffect : Obligations.AvailEffect := by
  refine ⟨fun w ops hop => ?_, fun s hrun hle => ?_⟩
  · rw [decode_of_op_avail ops hop]
    exact decodeN_eq_of_opOf ops .avail (hop.trans (by decide)) (by decide)
  · rw [exec_of_result hrun .avail, State.ofNat_bytesAvailable hle]
    rfl

/-! ### READ -/

/-- A READ leaves the ISB halted exactly where its whole range does not fit in DEST (41_finalize_read.md R71). -/
theorem exec_read_halts_iff {s : State} (m : BitVec 28) (d : Word) (hrun : s.running) :
    (∃ t, exec (.read m d) s = .next t ∧ t.halted = true) ↔
      s.params.destSize < d.toNat + s.copyCount m.toNat := by
  constructor
  · rintro ⟨t, h, hhalted⟩
    cases exec_result h with
    | faults hfault =>
      cases hfault with
      | read_bounds hdest => exact hdest
    | read hdest =>
      have hkept : s.halted = true :=
        (State.copyOut_halted s s.rcur.toNat d.toNat (s.copyCount m.toNat)).symm.trans hhalted
      rw [hrun.2] at hkept
      exact absurd hkept Bool.false_ne_true
  · exact fun hdest => ⟨_, exec_of_fault hrun (.read_bounds hdest), raiseFault_halted ..⟩

/-- Settles O15: the check against DEST_SIZE comes before any byte is written, and what it answers is the state with
the fault recorded; with nothing to copy, the end of the range is the offset itself. -/
theorem readPastDestFaults : Obligations.ReadPastDestFaults := by
  intro s m d hrun
  constructor
  · intro hdest
    rw [exec_of_fault hrun (.read_bounds hdest), raiseFault_eq_faulted]
    rfl
  · intro hzero
    rw [exec_read_halts_iff m d hrun, hzero, Nat.add_zero]

/-- Settles O34: decoding a READ checks nothing but the operand count; its loop writes the bytes of the range and
leaves the others, and RCUR plus the bytes copied does not wrap. -/
theorem readEffect : Obligations.ReadEffect := by
  constructor
  · intro w ops hop
    match ops with
    | [d] => rw [decode_of_op_read d hop, maxCountField_eq_ofNat]
    | [] | _ :: _ :: _ =>
      exact decode_of_wrong_count (illegalWord_of_read hop) (by simp [operandsNeeded, hop])
  · rintro s m d n hrun rfl hdest
    refine ⟨_, exec_of_result hrun (.read hdest), ?frame, s.rcur_add_copyCount_toNat m.toNat,
      ?response, fun i hi => ?copied, fun x hx => ?kept⟩
    case frame =>
      rw [State.copyOut_eq]
      rfl
    case response =>
      rw [State.respond_responses, State.copyOut_responses]
    case copied => exact State.copyOut_read_range s _ _ _ i hi
    case kept => exact State.copyOut_read_other s _ _ _ x hx

end Sys2Proof.Machine
end

section
/-! PROOFS. RESET: its encoding and its effect on the four cursors (42_reset.md). -/

namespace Sys2Proof.Machine

open Sys2Proof.Safety

theorem decode_of_op_reset {w : Word} (ops : List Word) (hop : opOf w = 5) :
    decode w ops = decodeN w ops .reset := by
  simp only [decode, opField_toNat, hop]

/-- RESET gives the four cursors their start values (42_reset.md R75) and leaves every other component alone (R76). -/
theorem State.startCursors_eq (s : State) :
    s.startCursors = { s with rcur := 0, wend := 0, wcur0 := 0, wcur1 := 2 } := rfl

/-- Settles O40: the one word of OP 5 is 0x50000000, and RESET has no fault of its own, so that a running ISB always
takes the start cursors. -/
theorem resetEffect : Obligations.ResetEffect := by
  refine ⟨fun w ops hop => ?encoding, fun s hrun => ?effect⟩
  case encoding =>
    rw [decode_of_op_reset ops hop]
    exact decodeN_eq_of_opOf ops .reset (hop.trans (by decide)) (by decide)
  case effect => rw [exec_of_result hrun .reset, State.startCursors_eq]

end Sys2Proof.Machine
end

section
/-! PROOFS. The exceptions (60_exceptions.md): the order of the fault conditions, precise faults, and the halted
state. -/

namespace Sys2Proof.Machine

open Sys2Proof.Safety

/-! ### What decoding reads from a transaction -/

/-- The transactions that decode, one case for each command: the opcode, the reserved fields that are 0, the operand
words, and the command with the fields of the word (30_encoding.md R46, R51, R53). -/
inductive DecodesTo (w : Word) : List Word → Instr → Prop where
  | appendS (hop : opOf w = 1) (hres : (w.toNat / 2 ^ 20) % 2 ^ 8 = 0) :
      DecodesTo w [] (.appendS (chField w) (valueField w))
  | appendB {fs : List Word} (hop : opOf w = 2) (hres : (w.toNat / 2 ^ 20) % 2 ^ 8 = 0)
      (hvalue : w.toNat % 2 ^ 16 = 0) (hlen : fs.length = 32) :
      DecodesTo w fs (.appendB (chField w) fs)
  | finalize (hop : opOf w = 3) (hres : w.toNat % 2 ^ 28 = 0) : DecodesTo w [] .finalize
  | read {d : Word} (hop : opOf w = 4) : DecodesTo w [d] (.read (maxCountField w) d)
  | reset (hop : opOf w = 5) (hres : w.toNat % 2 ^ 28 = 0) : DecodesTo w [] .reset
  | avail (hop : opOf w = 6) (hres : w.toNat % 2 ^ 28 = 0) : DecodesTo w [] .avail

theorem withLength_eq_ok {ok : Bool} {i j : Instr} (h : withLength ok i = .ok j) :
    ok = true ∧ i = j := by
  cases ok with
  | false => cases h
  | true => exact ⟨rfl, Except.ok.inj h⟩

theorem decodeN_eq_ok {w : Word} {ops : List Word} {i j : Instr} (h : decodeN w ops i = .ok j) :
    w.toNat % 2 ^ 28 = 0 ∧ ops = [] ∧ i = j := by
  unfold decodeN at h
  split at h
  case isTrue => cases h
  case isFalse hres =>
    obtain ⟨hops, hij⟩ := withLength_eq_ok h
    exact ⟨(maxCountField_eq_zero w).mp (Decidable.not_not.mp hres), List.isEmpty_iff.mp hops, hij⟩

theorem decodesTo_of_decode {w : Word} {ops : List Word} {i : Instr} (h : decode w ops = .ok i) :
    DecodesTo w ops i := by
  unfold decode at h
  rw [opField_toNat] at h
  split at h
  case h_1 hop =>
    split at h
    case isTrue => cases h
    case isFalse hres =>
      obtain ⟨hops, rfl⟩ := withLength_eq_ok h
      obtain rfl := List.isEmpty_iff.mp hops
      exact .appendS hop ((reservedHigh_eq_zero w).mp (Decidable.not_not.mp hres))
  case h_2 hop =>
    split at h
    case isTrue => cases h
    case isFalse hres =>
      obtain ⟨hlen, rfl⟩ := withLength_eq_ok h
      obtain ⟨hhigh, hvalue⟩ := not_or.mp hres
      exact .appendB hop ((reservedHigh_eq_zero w).mp (Decidable.not_not.mp hhigh))
        ((valueField_eq_zero w).mp (Decidable.not_not.mp hvalue)) (beq_iff_eq.mp hlen)
  case h_3 hop =>
    obtain ⟨hres, rfl, rfl⟩ := decodeN_eq_ok h
    exact .finalize hop hres
  case h_4 hop =>
    split at h
    case h_1 =>
      cases h
      exact .read hop
    case h_2 => cases h
  case h_5 hop =>
    obtain ⟨hres, rfl, rfl⟩ := decodeN_eq_ok h
    exact .reset hop hres
  case h_6 hop =>
    obtain ⟨hres, rfl, rfl⟩ := decodeN_eq_ok h
    exact .avail hop hres
  case h_7 => cases h

/-- No bit of the command word is lost: it is the word of the command it decodes to. -/
theorem commandWord_of_decodesTo {w : Word} {ops : List Word} {i : Instr} (h : DecodesTo w ops i) :
    commandWord i = w := by
  cases h with
  | appendS hop hres =>
    rw [← BitVec.toNat_inj, commandWord_appendS_toNat, chField_toNat, valueField_toNat]
    simp only [opOf, chOf] at *
    omega
  | appendB hop hres hvalue hlen =>
    rw [← BitVec.toNat_inj, commandWord_appendB_toNat, chField_toNat]
    simp only [opOf, chOf] at *
    omega
  | read hop =>
    rw [← BitVec.toNat_inj, commandWord_read_toNat, maxCountField_toNat]
    simp only [opOf] at hop
    omega
  | finalize hop hres =>
    exact ((eq_iff_reserved_eq_zero (hop.trans (by decide)) (by decide)).mpr hres).symm
  | reset hop hres =>
    exact ((eq_iff_reserved_eq_zero (hop.trans (by decide)) (by decide)).mpr hres).symm
  | avail hop hres =>
    exact ((eq_iff_reserved_eq_zero (hop.trans (by decide)) (by decide)).mpr hres).symm

/-! ### The fault a command meets -/

/-- The fault of an append to the channel field `ch` whose last byte is at the cursor plus `reach - 1`: BAD_CHANNEL
before WRITE_OVERFLOW (60_exceptions.md R83). -/
def appendFault (s : State) (ch : BitVec 4) (reach : Nat) : Option (Cause × Word) :=
  match channelOf? ch with
  | none => some (.badChannel, 0)
  | some c => if s.params.cap < (s.wcur c).toNat + reach then some (.writeOverflow, s.wcur c) else none

/-- The fault a command meets, as a function; `commandFaults_iff` ties it to `CommandFaults`. -/
def commandFault (s : State) : Instr → Option (Cause × Word)
  | .appendS ch _ => appendFault s ch 2
  | .appendB ch fs => if fs.length ≠ 32 then some (.badLength, 0) else appendFault s ch 126
  | .read m d =>
    if s.params.destSize < d.toNat + s.copyCount m.toNat then some (.destBounds, d) else none
  | .finalize | .reset | .avail => none

theorem appendFault_of_not_channel {s : State} {ch : BitVec 4} {reach : Nat}
    (hch : channelOf? ch = none) : appendFault s ch reach = some (.badChannel, 0) := by
  simp only [appendFault, hch]

theorem appendFault_channelNumber (s : State) (c : Channel) (reach : Nat) :
    appendFault s (channelNumber c) reach =
      if s.params.cap < (s.wcur c).toNat + reach then some (.writeOverflow, s.wcur c) else none := by
  simp only [appendFault, channelOf?_channelNumber]

theorem appendFault_eq_some {s : State} {ch : BitVec 4} {reach : Nat} {cause : Cause} {addr : Word}
    (h : appendFault s ch reach = some (cause, addr)) :
    (channelOf? ch = none ∧ cause = .badChannel ∧ addr = 0) ∨
      ∃ c, ch = channelNumber c ∧ s.params.cap < (s.wcur c).toNat + reach ∧
        cause = .writeOverflow ∧ addr = s.wcur c := by
  unfold appendFault at h
  split at h
  case h_1 hch =>
    cases h
    exact .inl ⟨hch, rfl, rfl⟩
  case h_2 c hch =>
    obtain ⟨hcap, heq⟩ := Option.ite_none_right_eq_some.mp h
    cases heq
    exact .inr ⟨c, channelOf?_eq_some_iff_channelNumber.mp hch, hcap, rfl, rfl⟩

theorem commandFaults_of_commandFault {s : State} {i : Instr} {cause : Cause} {addr : Word}
    (h : commandFault s i = some (cause, addr)) : CommandFaults s i cause addr := by
  cases i with
  | appendS ch v =>
    obtain ⟨hch, rfl, rfl⟩ | ⟨c, rfl, hcap, rfl, rfl⟩ := appendFault_eq_some h
    · exact .appendS_channel hch
    · exact .appendS_overflow hcap
  | appendB ch fs =>
    simp only [commandFault] at h
    split at h
    case isTrue hlen =>
      cases h
      exact .appendB_length hlen
    case isFalse hlen =>
      have hlen := Decidable.not_not.mp hlen
      obtain ⟨hch, rfl, rfl⟩ | ⟨c, rfl, hcap, rfl, rfl⟩ := appendFault_eq_some h
      · exact .appendB_channel hlen hch
      · exact .appendB_overflow hlen hcap
  | read m d =>
    obtain ⟨hdest, heq⟩ := Option.ite_none_right_eq_some.mp h
    cases heq
    exact .read_bounds hdest
  | finalize => cases h
  | reset => cases h
  | avail => cases h

theorem commandFaults_iff {s : State} {i : Instr} {cause : Cause} {addr : Word} :
    CommandFaults s i cause addr ↔ commandFault s i = some (cause, addr) := by
  refine ⟨fun h => ?_, commandFaults_of_commandFault⟩
  cases h with
  | appendS_channel hch => exact appendFault_of_not_channel hch
  | appendS_overflow hcap => simp [commandFault, appendFault_channelNumber, hcap]
  | appendB_length hlen => simp [commandFault, hlen]
  | appendB_channel hlen hch => simp [commandFault, hlen, appendFault_of_not_channel hch]
  | appendB_overflow hlen hcap => simp [commandFault, hlen, appendFault_channelNumber, hcap]
  | read_bounds hdest => simp [commandFault, hdest]

/-! ### The first fault of a transaction that decodes -/

/-- RCUR and WEND are multiples of 4, so what READ has left to copy is one. -/
theorem State.Inv.bytesAvailable_aligned {s : State} (hinv : s.Inv) : s.bytesAvailable % 4 = 0 := by
  have hrcur := hinv.rcur_aligned
  have hwend := hinv.wend_aligned
  unfold State.bytesAvailable
  omega

theorem cursorOf_channelNumber (s : State) (c : Channel) :
    cursorOf s (channelNumber c).toNat = s.wcur c := by
  cases c <;> rfl

/-- The conditions of an append as the rules number them: CH 2 or more, then the cursor of CH against CAP. -/
theorem appendFault_eq (s : State) (ch : BitVec 4) (reach : Nat) :
    appendFault s ch reach =
      if 2 ≤ ch.toNat then some (.badChannel, 0)
      else if s.params.cap < (cursorOf s ch.toNat).toNat + reach then
        some (.writeOverflow, cursorOf s ch.toNat)
      else none := by
  cases hch : channelOf? ch with
  | none => rw [appendFault_of_not_channel hch, if_pos (channelOf?_eq_none.mp hch)]
  | some c =>
    have hvalid : ¬ 2 ≤ ch.toNat := fun h => nomatch hch.symm.trans (channelOf?_eq_none.mpr h)
    obtain rfl := channelOf?_eq_some_iff_channelNumber.mp hch
    rw [if_neg hvalid, cursorOf_channelNumber, appendFault_channelNumber]

theorem checks_of_decode_ok {w : Word} {ops : List Word} {i : Instr} (h : decode w ops = .ok i) :
    illegalWord w = false ∧ ops.length = operandsNeeded w := by
  have hill : illegalWord w = false :=
    Bool.eq_false_of_not_eq_true fun hill => nomatch h.symm.trans (decode_of_illegalWord ops hill)
  have hlen : ops.length = operandsNeeded w :=
    Decidable.byContradiction fun hlen => nomatch h.symm.trans (decode_of_wrong_count hill hlen)
  exact ⟨hill, hlen⟩

/-- A transaction that decodes passes the first two checks of 60_exceptions.md R83; the others are its command's. -/
theorem expectedFault_of_decode {s : State} {w : Word} {ops : List Word} {i : Instr}
    (havail : s.bytesAvailable % 4 = 0) (h : decode w ops = .ok i) :
    expectedFault s w ops = commandFault s i := by
  obtain ⟨hill, hcount⟩ := checks_of_decode_ok h
  cases decodesTo_of_decode h with
  | appendS hop _ =>
    simp [expectedFault, hill, hcount, hop, commandFault, appendFault_eq, chField_toNat]
  | appendB hop _ _ hlen =>
    simp [expectedFault, hill, ← hcount, hop, hlen, commandFault, appendFault_eq, chField_toNat]
  | finalize hop _ => simp [expectedFault, hill, hcount, hop, commandFault]
  | @read d hop =>
    have hcopy : s.copyCount (maxCountField w).toNat = copyCountOf s (w.toNat % 2 ^ 28) := by
      rw [s.copyCount_eq_min _ havail, maxCountField_toNat]
      rfl
    simp [expectedFault, hill, hcount, hop, hcopy, commandFault]
  | reset hop _ => simp [expectedFault, hill, hcount, hop, commandFault]
  | avail hop _ => simp [expectedFault, hill, hcount, hop, commandFault]

/-! ### Commands that meet no fault -/

/-- A running ISB answers every command. -/
theorem exists_exec_eq_next (i : Instr) {s : State} (hrun : s.running) :
    ∃ t, exec i s = .next t := by
  have hguard := fun k => s.whenRunning_of_running k hrun
  cases i with
  | appendS ch v =>
    simp only [exec, execAppendS, hguard]
    split
    · exact ⟨_, rfl⟩
    · split <;> exact ⟨_, rfl⟩
  | appendB ch fs =>
    simp only [exec, execAppendB, hguard]
    split
    · exact ⟨_, rfl⟩
    · split
      · exact ⟨_, rfl⟩
      · split <;> exact ⟨_, rfl⟩
  | finalize => exact ⟨_, hguard _⟩
  | read m d =>
    simp only [exec, execRead, hguard]
    split <;> exact ⟨_, rfl⟩
  | reset => exact ⟨_, hguard _⟩
  | avail => exact ⟨_, hguard _⟩

/-- A command records the fault it meets, or leaves the fault registers as they were. -/
theorem CommandResult.fault_or_keeps {s t : State} {i : Instr} (h : CommandResult s i t) :
    (∃ cause addr, CommandFaults s i cause addr ∧ t = s.raiseFault (commandWord i) cause addr) ∨
      (t.fault = s.fault ∧ t.faultAddr = s.faultAddr) := by
  cases h with
  | faults hfault => exact .inl ⟨_, _, hfault, rfl⟩
  | appendS _ => exact .inr ⟨rfl, rfl⟩
  | appendB _ _ =>
    rw [State.writeBlock_eq]
    exact .inr ⟨rfl, rfl⟩
  | finalize => exact .inr ⟨rfl, rfl⟩
  | read _ =>
    rw [State.copyOut_eq]
    exact .inr ⟨rfl, rfl⟩
  | reset => exact .inr ⟨rfl, rfl⟩
  | avail => exact .inr ⟨rfl, rfl⟩

theorem exec_of_no_fault {s : State} {i : Instr} (hrun : s.running) (h : commandFault s i = none) :
    ∃ t, exec i s = .next t ∧ t.fault = s.fault ∧ t.faultAddr = s.faultAddr := by
  obtain ⟨t, hexec⟩ := exists_exec_eq_next i hrun
  obtain ⟨cause, addr, hfault, -⟩ | hkept := (exec_result hexec).fault_or_keeps
  · exact nomatch h.symm.trans (commandFaults_iff.mp hfault)
  · exact ⟨t, hexec, hkept⟩

/-! ### The order of the faults -/

/-- A transaction that decodes is taken off the port and run. -/
theorem step_of_decode_ok {s : State} {w : Word} {ops : List Word} {rest : List HostInput}
    {i : Instr} (hin : s.inputs = .command w ops :: rest) (hdec : decode w ops = .ok i) :
    step s = exec i { s with inputs := rest } := by
  simp only [step, hin, hdec]

/-- Settles O16: the two checks of decoding come first, in the order of R83; a transaction that passes both is the
encoding of its command, whose own checks are the rest of the list. -/
theorem transactionReportsFirstFault : Obligations.TransactionReportsFirstFault := by
  intro s w ops rest hinv hhalted hin
  have hrun : s.running := ⟨hinv.params_legal, hhalted⟩
  cases hill : illegalWord w with
  | true =>
    have hexpected : expectedFault s w ops = some (.illegalCommand, 0) := if_pos hill
    rw [hexpected]
    exact step_of_decode_error hrun hin (decode_of_illegalWord ops hill)
  | false =>
    by_cases hlen : ops.length = operandsNeeded w
    case neg =>
      have hexpected : expectedFault s w ops = some (.badLength, 0) := by
        simp [expectedFault, hill, hlen]
      rw [hexpected]
      exact step_of_decode_error hrun hin (decode_of_wrong_count hill hlen)
    case pos =>
      obtain ⟨i, hdec⟩ := exists_decode_eq_ok hill hlen
      have hexpected : expectedFault s w ops = commandFault { s with inputs := rest } i :=
        expectedFault_of_decode (s := { s with inputs := rest }) hinv.bytesAvailable_aligned hdec
      have hrun' : ({ s with inputs := rest } : State).running := hrun
      rw [hexpected, step_of_decode_ok hin hdec]
      cases hfault : commandFault { s with inputs := rest } i with
      | none => exact exec_of_no_fault hrun' hfault
      | some fault =>
        obtain ⟨cause, addr⟩ := fault
        have hword : commandWord i = w := commandWord_of_decodesTo (decodesTo_of_decode hdec)
        change exec i _ = _
        rw [exec_of_fault hrun' (commandFaults_of_commandFault hfault), hword, raiseFault_eq_faulted]

/-! ### What a step answers -/

/-- What a step that answers leaves of `s`: nothing was offered, a power-on reset was taken, or a transaction, which
names no command or was run. -/
inductive StepResult (s : State) : State → Prop where
  | idle (hin : s.inputs = []) (hrun : s.running) : StepResult s s
  | powerOnReset {rest : List HostInput} (hin : s.inputs = .powerOnReset :: rest)
      (hlegal : s.params.legal = true) :
      StepResult s (State.powerOnReset { s with inputs := rest })
  | rejected {w : Word} {ops : List Word} {rest : List HostInput} {cause : Cause}
      (hin : s.inputs = .command w ops :: rest) (hrun : s.running)
      (hdec : decode w ops = .error cause) :
      StepResult s (State.raiseFault { s with inputs := rest } w cause 0)
  | command {w : Word} {ops : List Word} {rest : List HostInput} {i : Instr} {t : State}
      (hin : s.inputs = .command w ops :: rest) (hrun : s.running) (hdec : decode w ops = .ok i)
      (hresult : CommandResult { s with inputs := rest } i t) : StepResult s t

theorem step_result {s t : State} (h : step s = .next t) : StepResult s t := by
  unfold step at h
  split at h
  case h_1 hin =>
    obtain ⟨hrun, ⟨⟩⟩ := State.whenRunning_next h
    exact .idle hin hrun
  case h_2 rest hin =>
    obtain ⟨hlegal, ⟨⟩⟩ := State.requireParams_next h
    exact .powerOnReset hin hlegal
  case h_3 w ops rest hin =>
    split at h
    case h_1 i hdec =>
      obtain ⟨hrun, hresult⟩ := exec_eq_next_iff.mp h
      exact .command hin hrun hdec hresult
    case h_2 cause hdec =>
      obtain ⟨hrun, ⟨⟩⟩ := State.whenRunning_next h
      exact .rejected hin hrun hdec

/-! ### Precise faults -/

/-- Whether an ISB is halted is read from FAULT alone (10_state.md R24). -/
theorem State.halted_congr {s t : State} (h : t.fault = s.fault) : t.halted = s.halted := by
  rw [State.halted, State.halted, State.faultCause, State.faultCause, h]

/-- Settles O17: of what a step can answer, only a transaction that names no command and a command that meets a fault
leave a running ISB halted, and both answer the state with the fault recorded. -/
theorem faultsArePrecise : Obligations.FaultsArePrecise := by
  intro s t hrun hstep hhalted
  cases step_result hstep with
  | idle => exact absurd (hrun.2.symm.trans hhalted) Bool.false_ne_true
  | powerOnReset => exact absurd hhalted Bool.false_ne_true
  | rejected hin => exact ⟨_, _, _, hin, rfl⟩
  | command hin _ _ hresult =>
    obtain ⟨cause, addr, -, rfl⟩ | ⟨hfault, -⟩ := hresult.fault_or_keeps
    · exact ⟨_, _, _, hin, rfl⟩
    · have hkept : t.halted = s.halted := State.halted_congr hfault
      exact absurd (hrun.2.symm.trans (hkept.symm.trans hhalted)) Bool.false_ne_true

/-! ### The halted state -/

/-- CAUSE is FAULT modulo 16 (10_state.md R22, R24). -/
theorem State.halted_iff (s : State) : s.halted = true ↔ s.fault.toNat % 16 ≠ 0 := by
  have hcause : s.faultCause.toNat = s.fault.toNat % 16 := by
    simp [State.faultCause, BitVec.extractLsb'_toNat]
  rw [State.halted, bne_iff_ne, ← hcause, ne_eq, ← BitVec.toNat_inj]
  rfl

theorem exec_of_halted (i : Instr) {s : State} (hlegal : s.params.legal = true)
    (h : s.halted = true) : exec i s = .fault .halted := by
  cases i <;> exact State.whenRunning_of_halted _ hlegal h

theorem step_of_halted {s : State} (hlegal : s.params.legal = true) (h : s.halted = true)
    (hin : s.inputs.head? ≠ some .powerOnReset) : step s = .fault .halted := by
  unfold step
  split
  case h_1 => exact State.whenRunning_of_halted _ hlegal h
  case h_2 rest hreset => exact absurd (congrArg List.head? hreset) hin
  case h_3 w ops rest _ =>
    split
    · exact exec_of_halted _ hlegal h
    · exact State.whenRunning_of_halted _ hlegal h

theorem step_of_powerOnReset {s : State} {rest : List HostInput} (hlegal : s.params.legal = true)
    (hin : s.inputs = .powerOnReset :: rest) :
    step s = .next (State.powerOnReset { s with inputs := rest }) := by
  simp only [step, hin, takePowerOnReset, State.requireParams, hlegal, if_true]

/-- Settles O18: every command, a rejected transaction and an idle step pass the guard that a halted ISB closes;
power-on reset alone does not. -/
theorem haltedTakesNothing : Obligations.HaltedTakesNothing := by
  intro s hlegal hcause
  have hhalted : s.halted = true := s.halted_iff.mpr hcause
  refine ⟨hhalted, fun i => exec_of_halted i hlegal hhalted, step_of_halted hlegal hhalted, rfl,
    fun hhead => ?wayOut⟩
  case wayOut =>
    obtain ⟨rest, hin⟩ := List.head?_eq_some_iff.mp hhead
    exact ⟨_, step_of_powerOnReset hlegal hin, State.powerOnReset_halted _⟩

end Sys2Proof.Machine
end

section
/-! PROOFS. The step that takes an input (70_reset_and_hazards.md): a transaction taken while not halted completes,
and what a power-on reset leaves. -/

namespace Sys2Proof.Machine

open Sys2Proof.Safety

/-! ### Completion -/

/-- No command touches what the host offers, whether it faults or not. -/
theorem CommandResult.inputs_eq {s t : State} {i : Instr} (h : CommandResult s i t) :
    t.inputs = s.inputs := by
  cases h with
  | faults _ => rfl
  | appendS _ => exact State.setWcur_inputs ..
  | appendB _ _ => rw [State.writeBlock_eq]; exact State.setWcur_inputs ..
  | finalize => rfl
  | read _ => rw [State.copyOut_eq]; rfl
  | reset => rfl
  | avail => rfl

/-- Settles O6: a transaction that names no command is answered by its fault, any other by its command, which a
running ISB always answers. -/
theorem everyTransactionCompletes : Obligations.EveryTransactionCompletes := by
  intro s w ops rest hrun hin
  cases hdec : decode w ops with
  | error cause => exact ⟨_, step_of_decode_error hrun hin hdec, rfl⟩
  | ok i =>
    have hrun' : ({ s with inputs := rest } : State).running := hrun
    obtain ⟨t, hexec⟩ := exists_exec_eq_next i hrun'
    exact ⟨t, (step_of_decode_ok hin hdec).trans hexec, (exec_result hexec).inputs_eq⟩

/-! ### Power-on reset -/

/-- Settles O20: the guard of a power-on reset asks for legal parameters alone, so it is taken halted or not; it
leaves the start values, an empty store and DEST as it was. -/
theorem powerOnResetEffect : Obligations.PowerOnResetEffect := by
  intro s rest hlegal hin
  exact ⟨_, step_of_powerOnReset hlegal hin, rfl, rfl, rfl, rfl, rfl, rfl, fun _ => rfl,
    State.powerOnReset_halted _, State.powerOnReset_dest _⟩

end Sys2Proof.Machine
end

section
/-! PROOFS. The encoding (30_encoding.md): decoding and encoding are inverse to each other, and what decodes is what
the match and mask table selects; the step that takes a transaction which decodes. -/

namespace Sys2Proof.Machine

open Sys2Proof.Safety

/-! ### The fields of a command's own word -/

theorem opOf_commandWord_appendS (ch : BitVec 4) (v : Sample) :
    opOf (commandWord (.appendS ch v)) = 1 := by
  rw [← opField_toNat, Laws.opField_appendS]
  rfl

theorem opOf_commandWord_appendB (ch : BitVec 4) (fs : List Word) :
    opOf (commandWord (.appendB ch fs)) = 2 := by
  rw [← opField_toNat, Laws.opField_appendB]
  rfl

theorem opOf_commandWord_read (m : BitVec 28) (d : Word) :
    opOf (commandWord (.read m d)) = 4 := by
  rw [← opField_toNat, Laws.opField_read]
  rfl

theorem chField_commandWord_appendS (ch : BitVec 4) (v : Sample) :
    chField (commandWord (.appendS ch v)) = ch := by
  have hv := v.isLt
  rw [← BitVec.toNat_inj, chField_toNat, chOf, commandWord_appendS_toNat]
  omega

theorem valueField_commandWord_appendS (ch : BitVec 4) (v : Sample) :
    valueField (commandWord (.appendS ch v)) = v := by
  rw [← BitVec.toNat_inj, valueField_toNat, commandWord_appendS_toNat]
  omega

theorem chField_commandWord_appendB (ch : BitVec 4) (fs : List Word) :
    chField (commandWord (.appendB ch fs)) = ch := by
  rw [← BitVec.toNat_inj, chField_toNat, chOf, commandWord_appendB_toNat]
  omega

theorem maxCountField_commandWord_read (m : BitVec 28) (d : Word) :
    maxCountField (commandWord (.read m d)) = m := by
  rw [← BitVec.toNat_inj, maxCountField_toNat, commandWord_read_toNat]
  omega

/-! ### Decoding is the inverse of encoding -/

/-- The encoding of a well-formed command has its opcode, reserved fields 0, the operand count of its opcode, and
the command's own operands in the fields (30_encoding.md R46, R48). -/
theorem decodesTo_encode {i : Instr} (hwf : i.wellFormed = true) :
    DecodesTo (commandWord i) (operandWords i) i := by
  cases i with
  | appendS ch v =>
    have hword := commandWord_appendS_toNat ch v
    have h : DecodesTo (commandWord (.appendS ch v)) [] _ :=
      .appendS (opOf_commandWord_appendS ch v) (by omega)
    rwa [chField_commandWord_appendS, valueField_commandWord_appendS] at h
  | appendB ch fs =>
    have hword := commandWord_appendB_toNat ch fs
    have h : DecodesTo (commandWord (.appendB ch fs)) fs _ :=
      .appendB (opOf_commandWord_appendB ch fs) (by omega) (by omega) (beq_iff_eq.mp hwf)
    rwa [chField_commandWord_appendB] at h
  | finalize => exact .finalize (by decide) (by decide)
  | read m d =>
    have h : DecodesTo (commandWord (.read m d)) [d] _ := .read (opOf_commandWord_read m d)
    rwa [maxCountField_commandWord_read] at h
  | reset => exact .reset (by decide) (by decide)
  | avail => exact .avail (by decide) (by decide)

theorem decode_of_op_appendS {w : Word} (ops : List Word) (hop : opOf w = 1) :
    decode w ops =
      if (w.toNat / 2 ^ 20) % 2 ^ 8 ≠ 0 then .error .illegalCommand
      else withLength ops.isEmpty (.appendS (chField w) (valueField w)) := by
  simp only [decode, opField_toNat, hop, ne_eq, reservedHigh_eq_zero]

theorem decode_of_op_appendB {w : Word} (ops : List Word) (hop : opOf w = 2) :
    decode w ops =
      if (w.toNat / 2 ^ 20) % 2 ^ 8 ≠ 0 ∨ w.toNat % 2 ^ 16 ≠ 0 then .error .illegalCommand
      else withLength (ops.length == 32) (.appendB (chField w) ops) := by
  simp only [decode, opField_toNat, hop, ne_eq, reservedHigh_eq_zero, valueField_eq_zero]

theorem decodeN_of_reserved_eq_zero {w : Word} (i : Instr) (hres : w.toNat % 2 ^ 28 = 0) :
    decodeN w [] i = .ok i := by
  rw [decodeN_eq, if_neg (not_not.mpr hres)]
  rfl

theorem decode_of_decodesTo {w : Word} {ops : List Word} {i : Instr} (h : DecodesTo w ops i) :
    decode w ops = .ok i := by
  cases h with
  | appendS hop hres =>
    rw [decode_of_op_appendS _ hop, if_neg (not_not.mpr hres)]
    rfl
  | appendB hop hres hvalue hlen =>
    rw [decode_of_op_appendB _ hop, if_neg (by simp only [hres, hvalue]; decide), hlen]
    rfl
  | finalize hop hres => exact (decode_of_op_finalize _ hop).trans (decodeN_of_reserved_eq_zero _ hres)
  | read hop => exact decode_of_op_read _ hop
  | reset hop hres => exact (decode_of_op_reset _ hop).trans (decodeN_of_reserved_eq_zero _ hres)
  | avail hop hres => exact (decode_of_op_avail _ hop).trans (decodeN_of_reserved_eq_zero _ hres)

/-- What a transaction decodes to, as a relation and as the function. -/
theorem decode_eq_ok_iff {w : Word} {ops : List Word} {i : Instr} :
    decode w ops = .ok i ↔ DecodesTo w ops i :=
  ⟨decodesTo_of_decode, decode_of_decodesTo⟩

/-- Settles O1: the word of each command has the fields that decoding checks and reads. -/
theorem decodeEncode : Obligations.DecodeEncode :=
  fun _ hwf => decode_of_decodesTo (decodesTo_encode hwf)

theorem DecodesTo.operandWords_eq {w : Word} {ops : List Word} {i : Instr} (h : DecodesTo w ops i) :
    operandWords i = ops := by
  cases h <;> rfl

/-- Decoding lets only blocks of 32 samples through; every other command is well-formed by its type. -/
theorem DecodesTo.wellFormed {w : Word} {ops : List Word} {i : Instr} (h : DecodesTo w ops i) :
    i.wellFormed = true := by
  cases h with
  | appendB _ _ _ hlen => exact beq_iff_eq.mpr hlen
  | appendS _ _ | finalize _ _ | read _ | reset _ _ | avail _ _ => rfl

/-- Settles O2: the fields of a word that decodes are all of its bits. -/
theorem encodeDecode : Obligations.EncodeDecode := by
  intro w ops i h
  have hdec := decodesTo_of_decode h
  exact ⟨Prod.ext (commandWord_of_decodesTo hdec) hdec.operandWords_eq, hdec.wellFormed⟩

/-- Settles O4: each word has the fields of the command it stands for, so that decoding computes. -/
theorem decodeWrittenWords : Obligations.DecodeWrittenWords :=
  ⟨by decide, by decide, by decide, by decide, by decide, by decide⟩

/-! ### The match and mask table -/

/-- A command word is its four fields, the most significant first (30_encoding.md R46). -/
theorem word_eq_fields (w : Word) : w = opField w ++ reservedHigh w ++ chField w ++ valueField w := by
  rw [← BitVec.toNat_inj]
  simp only [toNat_append_eq, opField_toNat, reservedHigh_toNat, chField_toNat, valueField_toNat,
    opOf, chOf]
  omega

/-- Two words of four fields are equal exactly where each field is. -/
theorem fields_inj {a a' : BitVec 4} {b b' : BitVec 8} {c c' : BitVec 4} {d d' : BitVec 16} :
    a ++ b ++ c ++ d = a' ++ b' ++ c' ++ d' ↔ a = a' ∧ b = b' ∧ c = c' ∧ d = d' := by
  simp only [← BitVec.toNat_inj, toNat_append_eq]
  have := b.isLt; have := b'.isLt; have := c.isLt; have := c'.isLt; have := d.isLt; have := d'.isLt
  omega

/-- A mask whose fields are all ones or 0 selects exactly the fields where it is all ones. -/
theorem and_mask_eq_iff (w : Word) (a : BitVec 4) (b mb : BitVec 8) (d md : BitVec 16) :
    w &&& (BitVec.allOnes 4 ++ mb ++ 0#4 ++ md) = a ++ b ++ 0#4 ++ d ↔
      opField w = a ∧ reservedHigh w &&& mb = b ∧ valueField w &&& md = d := by
  conv_lhs => rw [word_eq_fields w, BitVec.and_append, BitVec.and_append, BitVec.and_append, fields_inj,
    BitVec.and_allOnes, BitVec.and_zero]
  simp

theorem opField_eq_iff {w : Word} {a : BitVec 4} : opField w = a ↔ opOf w = a.toNat := by
  rw [← BitVec.toNat_inj, opField_toNat]

/-- The rows of APPEND.S, APPEND.B and READ select by OP and the reserved fields. -/
theorem and_appendS_mask (w : Word) :
    w &&& 0xFFF00000 = 0x10000000 ↔ opOf w = 1 ∧ (w.toNat / 2 ^ 20) % 2 ^ 8 = 0 := by
  have h := and_mask_eq_iff w 1 0 (BitVec.allOnes 8) 0 0
  rw [BitVec.and_allOnes] at h
  rw [← reservedHigh_eq_zero]
  simpa [opField_eq_iff] using h

theorem and_appendB_mask (w : Word) :
    w &&& 0xFFF0FFFF = 0x20000000 ↔
      opOf w = 2 ∧ (w.toNat / 2 ^ 20) % 2 ^ 8 = 0 ∧ w.toNat % 2 ^ 16 = 0 := by
  have h := and_mask_eq_iff w 2 0 (BitVec.allOnes 8) 0 (BitVec.allOnes 16)
  rw [BitVec.and_allOnes, BitVec.and_allOnes] at h
  rw [← reservedHigh_eq_zero, ← valueField_eq_zero]
  simpa [opField_eq_iff] using h

theorem and_read_mask (w : Word) : w &&& 0xF0000000 = 0x40000000 ↔ opOf w = 4 := by
  have h := and_mask_eq_iff w 4 0 0 0 0
  simpa [opField_eq_iff] using h

/-- The rows of format N select one word each. -/
theorem and_formatN_mask (w p : Word) (hp : p.toNat % 2 ^ 28 = 0) :
    w &&& 0xFFFFFFFF = p ↔ opOf w = opOf p ∧ w.toNat % 2 ^ 28 = 0 := by
  have hall : w &&& 0xFFFFFFFF = w := BitVec.and_allOnes
  rw [hall]
  refine ⟨?_, fun ⟨hop, hres⟩ => (eq_iff_reserved_eq_zero hop hp).mpr hres⟩
  rintro rfl
  exact ⟨rfl, hp⟩

/-- A word names a command exactly where its reserved fields are 0, opcode by opcode (30_encoding.md R50, R51). -/
theorem illegalWord_eq_false_iff (w : Word) :
    illegalWord w = false ↔
      (opOf w = 1 ∧ (w.toNat / 2 ^ 20) % 2 ^ 8 = 0) ∨
      (opOf w = 2 ∧ (w.toNat / 2 ^ 20) % 2 ^ 8 = 0 ∧ w.toNat % 2 ^ 16 = 0) ∨
      (opOf w = 3 ∧ w.toNat % 2 ^ 28 = 0) ∨ opOf w = 4 ∨
      (opOf w = 5 ∧ w.toNat % 2 ^ 28 = 0) ∨ (opOf w = 6 ∧ w.toNat % 2 ^ 28 = 0) := by
  unfold illegalWord
  grind

/-- A transaction decodes to some command exactly where it passes both checks of decoding. -/
theorem exists_decode_eq_ok_iff {w : Word} {ops : List Word} :
    (∃ i, decode w ops = .ok i) ↔ illegalWord w = false ∧ ops.length = operandsNeeded w :=
  ⟨fun ⟨_, h⟩ => checks_of_decode_ok h, fun ⟨hill, hlen⟩ => exists_decode_eq_ok hill hlen⟩

/-- Settles O3: each row of the table selects the words of one opcode whose reserved fields are 0, and asks for that
opcode's operand count. -/
theorem decodeSelectsTableRow : Obligations.DecodeSelectsTableRow := by
  intro w ops
  have h3 := and_formatN_mask w 0x30000000 (by decide)
  have h5 := and_formatN_mask w 0x50000000 (by decide)
  have h6 := and_formatN_mask w 0x60000000 (by decide)
  have e3 : opOf 0x30000000 = 3 := by decide
  have e5 : opOf 0x50000000 = 5 := by decide
  have e6 : opOf 0x60000000 = 6 := by decide
  rw [exists_decode_eq_ok_iff, illegalWord_eq_false_iff, operandsNeeded]
  simp only [encodingRows, List.mem_cons, List.not_mem_nil, or_false, exists_eq_or_imp,
    exists_eq_left, and_appendS_mask, and_appendB_mask, and_read_mask, h3, h5, h6, e3, e5, e6]
  grind

/-! ### The step that takes a transaction which decodes -/

/-- Settles O5: `step` is defined by decoding, and only well-formed commands are decoded. -/
theorem stepRunsDecoded : Obligations.StepRunsDecoded :=
  fun _ _ _ _ _ hin hdec => ⟨(decodesTo_of_decode hdec).wellFormed, step_of_decode_ok hin hdec⟩

/-- A command that names a channel of 2 or more faults BAD_CHANNEL, whatever its other operands. -/
theorem DecodesTo.faults_badChannel {w : Word} {ops : List Word} {i : Instr} (h : DecodesTo w ops i)
    (hop : opOf w = 1 ∨ opOf w = 2) (hch : 2 ≤ chOf w) (s : State) :
    CommandFaults s i .badChannel 0 := by
  have hnone : channelOf? (chField w) = none :=
    channelOf?_eq_none.mpr (by rwa [chField_toNat])
  cases h with
  | appendS _ _ => exact .appendS_channel hnone
  | appendB _ _ _ hlen => exact .appendB_channel hlen hnone
  | finalize h | read h | reset h | avail h => omega

/-- Settles O13: the transaction passes both checks of decoding, and the channel is the first thing its append
checks. -/
theorem badChannelFaults : Obligations.BadChannelFaults := by
  intro s w ops rest hrun hin hop hill hlen hch
  obtain ⟨i, hdec⟩ := exists_decode_eq_ok hill hlen
  have hto := decodesTo_of_decode hdec
  have hrun' : ({ s with inputs := rest } : State).running := hrun
  refine ⟨⟨i, hdec, hto.wellFormed⟩, ?_⟩
  rw [step_of_decode_ok hin hdec, exec_of_fault hrun' (hto.faults_badChannel hop hch _),
    commandWord_of_decodesTo hto, raiseFault_eq_faulted]

end Sys2Proof.Machine
end

section
/-! PROOFS. What every step keeps: the invariant (10_state.md section 4), the parameters, and the memories outside the
one command that writes each. -/

namespace Sys2Proof.Machine

open Sys2Proof.Safety

/-! ### The invariant at power-on -/

/-- Below the start value 2 of WCUR[1] there is no slot of channel 1. -/
theorem no_upper_slot_below_start {a : Nat} (ha : a < (2#32).toNat) (hslot : 2 ≤ a % 4) : False := by
  have hlt : a < 2 := ha
  omega

/-- Settles O41: the cursors start at the slots of their own channel, with nothing behind them. -/
theorem invariantAtPowerOn : Obligations.InvariantAtPowerOn := fun _ _ _ hp hwf hin =>
  { params_legal := hp
    store_wf := rfl
    store_within := rfl
    dest_wf := hwf
    dest_within := hin
    wcur0_aligned := rfl
    wcur0_le := Nat.zero_le _
    wcur1_aligned := rfl
    wcur1_le := Nat.le_add_left 2 _
    wend_aligned := rfl
    wend_le := Nat.le_refl 0
    rcur_aligned := rfl
    rcur_le := Nat.le_refl 0
    slots0_written := fun a ha => absurd ha a.not_lt_zero
    slots1_written := fun _ ha hslot => (no_upper_slot_below_start ha hslot).elim
    fault_form := .inl ⟨rfl, rfl⟩ }

/-- Settles O23: the reset state is written as that power-on state, and its sizes are legal. -/
theorem resetIsPowerOn : Obligations.ResetIsPowerOn :=
  ⟨rfl, invariantAtPowerOn Config.resetParams [] [] (by decide) rfl rfl⟩

/-! ### The invariant under each effect -/

namespace State.Inv

variable {s : State}

/-- The invariant says nothing of the ports and of the draws. -/
theorem with_ports (hinv : s.Inv) (inputs : List HostInput) (responses : List Word) (draws : Nat) :
    State.Inv { s with inputs := inputs, responses := responses, draws := draws } :=
  { hinv with }

/-- The invariant says of DEST only that it is a memory of its size. -/
theorem with_dest (hinv : s.Inv) {dest : Memory} (hwf : dest.wf = true)
    (hin : dest.within s.params.destSize = true) : State.Inv { s with dest := dest } :=
  { hinv with dest_wf := hwf, dest_within := hin }

theorem powerOnReset (hinv : s.Inv) : s.powerOnReset.Inv :=
  (invariantAtPowerOn s.params s.dest s.inputs hinv.params_legal hinv.dest_wf
    hinv.dest_within).with_ports s.inputs s.responses s.draws

/-- RESET leaves the cursors where power-on leaves them, so nothing is behind them. -/
theorem startCursors (hinv : s.Inv) : s.startCursors.Inv :=
  { hinv with
    wcur0_aligned := rfl
    wcur0_le := Nat.zero_le _
    wcur1_aligned := rfl
    wcur1_le := Nat.le_add_left 2 _
    wend_aligned := rfl
    wend_le := Nat.le_refl 0
    rcur_aligned := rfl
    rcur_le := Nat.le_refl 0
    slots0_written := fun a ha => absurd ha a.not_lt_zero
    slots1_written := fun _ ha hslot => (no_upper_slot_below_start ha hslot).elim }

end State.Inv

/-- CAUSE after a fault is the code of its cause (60_exceptions.md R78). -/
theorem raiseFault_faultCause_toNat (s : State) (w : Word) (c : Cause) (addr : Word) :
    (s.raiseFault w c addr).faultCause.toNat = codeNumber c := by
  have hcode := codeNumber_pos c
  simp only [State.faultCause, State.raiseFault_fault, BitVec.extractLsb'_toNat, faultWord_toNat,
    faultNumber, Nat.shiftRight_zero]
  omega

/-- Bits [31:12] of FAULT are 0 (10_state.md R22). -/
theorem faultWord_high_eq_zero (w : Word) (c : Cause) : (faultWord w c).extractLsb' 12 20 = 0 := by
  have hlt := faultNumber_lt w c
  rw [← BitVec.toNat_inj, BitVec.extractLsb'_toNat, faultWord_toNat, Nat.shiftRight_eq_div_pow,
    Nat.div_eq_of_lt hlt]
  rfl

/-- The bytes of channel `c`'s slots behind WCUR[c] are written, `n` slots from there on with them. -/
theorem State.Inv.slots_written_append {s t : State} (hinv : s.Inv) {c : Channel} {n : Nat}
    (hkept : ∀ x, s.written x = true → t.written x = true)
    (hslots : ∀ k, k < n →
      t.written ((s.wcur c).toNat + 4 * k) = true ∧ t.written ((s.wcur c).toNat + 4 * k + 1) = true)
    {a : Nat} (ha : a < (s.wcur c).toNat + 4 * n) (hlow : channelStart c ≤ a % 4)
    (hhigh : a % 4 ≤ channelStart c + 1) : t.written a = true := by
  have haligned := hinv.wcur_aligned c
  obtain hbehind | hahead := Nat.lt_or_ge a (s.wcur c).toNat
  · refine hkept a ?_
    cases c with
    | ch0 => exact hinv.slots0_written a hbehind (Nat.lt_succ_of_le hhigh)
    | ch1 => exact hinv.slots1_written a hbehind hlow
  · have hslot := hslots ((a - (s.wcur c).toNat) / 4) (by omega)
    obtain heq | heq : a = (s.wcur c).toNat + 4 * ((a - (s.wcur c).toNat) / 4) ∨
        a = (s.wcur c).toNat + 4 * ((a - (s.wcur c).toNat) / 4) + 1 := by omega
    · exact heq ▸ hslot.1
    · exact heq ▸ hslot.2

namespace State.Inv

variable {s : State}

theorem raiseFault (hinv : s.Inv) (w : Word) (c : Cause) (addr : Word) :
    (s.raiseFault w c addr).Inv :=
  { hinv with
    fault_form := by
      rw [raiseFault_faultCause_toNat]
      exact .inr ⟨(codeNumber_pos c).1, (codeNumber_pos c).2, faultWord_high_eq_zero w c⟩ }

theorem finalize (hinv : s.Inv) : State.Inv { s with wend := s.wcur0, rcur := 0 } :=
  { hinv with
    wend_aligned := hinv.wcur0_aligned
    wend_le := Nat.le_refl _
    rcur_aligned := rfl
    rcur_le := Nat.zero_le _ }

/-- RCUR moves on by a whole number of frames, at most to WEND. -/
theorem read_cursor (hinv : s.Inv) (m : Nat) :
    State.Inv { s with rcur := s.rcur + BitVec.ofNat 32 (s.copyCount m) } := by
  have hrcur := s.rcur_add_copyCount_toNat m
  have haligned := s.copyCount_aligned m hinv.bytesAvailable_aligned
  have hle : s.copyCount m ≤ s.wend.toNat - s.rcur.toNat := s.copyCount_le_available m
  refine { hinv with rcur_aligned := ?_, rcur_le := ?_ }
  · have h := hinv.rcur_aligned
    change (s.rcur + BitVec.ofNat 32 (s.copyCount m)).toNat % 4 = 0
    omega
  · have h := hinv.rcur_le
    change (s.rcur + BitVec.ofNat 32 (s.copyCount m)).toNat ≤ s.wend.toNat
    omega

/-- An append of `n` samples: the store gets the `n` slots at WCUR[c] and loses no byte, and the cursor moves past
them; that CAP is a multiple of 4 leaves room for the whole of the last frame. -/
theorem append (hinv : s.Inv) {c : Channel} {n : Nat} {k : Word} {store : Memory} {draws : Nat}
    (hk : k.toNat = 4 * n) (hcap : (s.wcur c).toNat + 4 * n ≤ s.params.cap + 2)
    (hwf : store.wf = true) (hwithin : store.within s.params.cap = true)
    (hkept : ∀ x, s.written x = true → (store.read x).isSome = true)
    (hslots : ∀ j, j < n → (store.read ((s.wcur c).toNat + 4 * j)).isSome = true ∧
      (store.read ((s.wcur c).toNat + 4 * j + 1)).isSome = true) :
    (State.setWcur { s with store := store, draws := draws } c (s.wcur c + k)).Inv := by
  have hlegal := hinv.params_legal
  simp only [Params.legal, decide_eq_true_eq] at hlegal
  obtain ⟨-, hcap_le, hcap_aligned, -⟩ := hlegal
  have hcursor : (s.wcur c + k).toNat = (s.wcur c).toNat + 4 * n := by
    rw [BitVec.toNat_add_of_lt (by omega), hk]
  have haligned := hinv.wcur_aligned c
  have hwritten := fun a => hinv.slots_written_append
    (t := { s with store := store, draws := draws }) hkept hslots (a := a)
  cases c with
  | ch0 =>
    have hcursor : (s.wcur0 + k).toNat = s.wcur0.toNat + 4 * n := hcursor
    have haligned : s.wcur0.toNat % 4 = 0 := haligned
    have hcap : s.wcur0.toNat + 4 * n ≤ s.params.cap + 2 := hcap
    have hwend := hinv.wend_le
    exact { hinv with
      store_wf := hwf
      store_within := hwithin
      wcur0_aligned := by change (s.wcur0 + k).toNat % 4 = 0; omega
      wcur0_le := by change (s.wcur0 + k).toNat ≤ s.params.cap; omega
      wend_le := by change s.wend.toNat ≤ (s.wcur0 + k).toNat; omega
      slots0_written := fun a ha hslot =>
        hwritten a (hcursor ▸ ha) (Nat.zero_le _) (Nat.le_of_lt_succ hslot)
      slots1_written := fun a ha hslot => hkept a (hinv.slots1_written a ha hslot) }
  | ch1 =>
    have hcursor : (s.wcur1 + k).toNat = s.wcur1.toNat + 4 * n := hcursor
    have haligned : s.wcur1.toNat % 4 = 2 := haligned
    have hcap : s.wcur1.toNat + 4 * n ≤ s.params.cap + 2 := hcap
    exact { hinv with
      store_wf := hwf
      store_within := hwithin
      wcur1_aligned := by change (s.wcur1 + k).toNat % 4 = 2; omega
      wcur1_le := by change (s.wcur1 + k).toNat ≤ s.params.cap + 2; omega
      slots0_written := fun a ha hslot => hkept a (hinv.slots0_written a ha hslot)
      slots1_written := fun a ha hslot =>
        hwritten a (hcursor ▸ ha) hslot (Nat.le_of_lt_succ (Nat.mod_lt _ (by decide))) }

theorem appendS (hinv : s.Inv) {c : Channel} (v : Sample)
    (hcap : (s.wcur c).toNat + 2 ≤ s.params.cap) :
    ((s.writeSample (s.wcur c).toNat v).setWcur c (s.wcur c + 4)).Inv := by
  have hslots : ∀ x, x = (s.wcur c).toNat ∨ x = (s.wcur c).toNat + 1 ∨ s.written x = true →
      ((s.writeSample (s.wcur c).toNat v).store.read x).isSome = true := by
    intro x hx
    simp only [State.writeSample_store, Memory.read_write]
    split
    case isTrue => rfl
    case isFalse hhigh =>
      split
      case isTrue => rfl
      case isFalse hlow => exact (hx.resolve_left hlow).resolve_left hhigh
  exact hinv.append (n := 1) (draws := s.draws) rfl (by omega)
    (Memory.wf_write _ _ _ (Memory.wf_write _ _ _ hinv.store_wf))
    (Memory.within_write _ _ (by omega) (Memory.within_write _ _ (by omega) hinv.store_within))
    (fun x hx => hslots x (.inr (.inr hx)))
    (fun j hj => ⟨hslots _ (.inl (by omega)), hslots _ (.inr (.inl (by omega)))⟩)

theorem appendB (hinv : s.Inv) {c : Channel} {fs : List Word} (hlen : fs.length = 32)
    (hcap : (s.wcur c).toNat + 126 ≤ s.params.cap) :
    ((s.writeBlock (s.wcur c).toNat fs).setWcur c (s.wcur c + 128)).Inv := by
  rw [State.writeBlock_eq]
  refine hinv.append (n := 32) rfl (by omega) (s.writeBlock_wf _ _ hinv.store_wf)
    (s.writeBlock_within _ _ (by omega) hinv.store_within)
    (fun x hx => s.writeBlock_written _ x fs hx) (fun j hj => ?_)
  obtain ⟨v, hlow, hhigh, -⟩ := s.writeBlock_read_slot (s.wcur c).toNat j fs (by omega)
  exact ⟨Option.isSome_of_eq_some hlow, Option.isSome_of_eq_some hhigh⟩

theorem read (hinv : s.Inv) {m : BitVec 28} {d : Word}
    (hdest : d.toNat + s.copyCount m.toNat ≤ s.params.destSize) :
    (State.respond
      { s.copyOut s.rcur.toNat d.toNat (s.copyCount m.toNat) with
        rcur := s.rcur + BitVec.ofNat 32 (s.copyCount m.toNat) }
      (BitVec.ofNat 32 (s.copyCount m.toNat))).Inv := by
  rw [State.copyOut_eq]
  exact ((hinv.read_cursor m.toNat).with_dest (s.copyOut_wf _ _ _ hinv.dest_wf)
    (s.copyOut_within _ _ _ hdest hinv.dest_within)).with_ports s.inputs _ _

end State.Inv

/-- A command keeps the invariant, whether it faults or not. -/
theorem CommandResult.keeps_inv {s t : State} {i : Instr} (h : CommandResult s i t)
    (hinv : s.Inv) : t.Inv := by
  cases h with
  | faults _ => exact hinv.raiseFault _ _ _
  | appendS hcap => exact hinv.appendS _ hcap
  | appendB hlen hcap => exact hinv.appendB hlen hcap
  | finalize => exact hinv.finalize
  | read hdest => exact hinv.read hdest
  | reset => exact hinv.startCursors
  | avail => exact hinv.with_ports s.inputs _ s.draws

/-- Settles O42: of what a step can answer, a case at a time, each effect keeps the invariant. -/
theorem stepKeepsInvariant : Obligations.StepKeepsInvariant := by
  intro s t hinv h
  have hinv' : ∀ rest, State.Inv { s with inputs := rest } :=
    fun rest => hinv.with_ports rest s.responses s.draws
  cases step_result h with
  | idle _ _ => exact hinv
  | powerOnReset _ _ => exact (hinv' _).powerOnReset
  | rejected _ _ _ => exact (hinv' _).raiseFault _ _ _
  | command _ _ _ hresult => exact hresult.keeps_inv (hinv' _)

/-! ### The states that are reached -/

theorem Reachable.inv {s : State} (h : Reachable s) : s.Inv := by
  induction h with
  | powerOn p dest inputs hp hwf hin => exact invariantAtPowerOn p dest inputs hp hwf hin
  | step _ hstep hinv => exact stepKeepsInvariant _ _ hinv hstep
  | offer _ inputs hinv => exact hinv.with_ports inputs _ _
  | consumer _ dest hwf hin hinv => exact hinv.with_dest hwf hin

theorem State.Inv.cursorRanges {s : State} (hinv : s.Inv) : s.CursorRanges := by
  have hwcur1 := hinv.wcur1_aligned
  exact ⟨⟨hinv.wcur0_aligned, hinv.wcur0_le⟩, ⟨hwcur1, by omega, hinv.wcur1_le⟩,
    ⟨hinv.wend_aligned, hinv.wend_le.trans hinv.wcur0_le⟩, hinv.rcur_aligned, hinv.rcur_le⟩

/-- Settles O43: every reached state has the invariant, which holds the ranges. -/
theorem cursorRangesWhenReached : Obligations.CursorRangesWhenReached :=
  fun _ h => ⟨h.inv.cursorRanges, h.inv.bytesAvailable_aligned⟩

/-! ### Parameters and the count of draws -/

/-- No command changes the parameters or takes a draw back. -/
theorem CommandResult.params_draws {s t : State} {i : Instr} (h : CommandResult s i t) :
    t.params = s.params ∧ s.draws ≤ t.draws := by
  cases h with
  | faults _ => exact ⟨rfl, Nat.le_refl _⟩
  | appendS _ => exact ⟨rfl, Nat.le_refl _⟩
  | appendB _ _ =>
    refine ⟨?_, s.writeBlock_draws_le _ _⟩
    rw [State.writeBlock_eq]
    rfl
  | finalize => exact ⟨rfl, Nat.le_refl _⟩
  | read _ =>
    refine ⟨?_, s.copyOut_draws_le _ _ _⟩
    rw [State.copyOut_eq]
    rfl
  | reset => exact ⟨rfl, Nat.le_refl _⟩
  | avail => exact ⟨rfl, Nat.le_refl _⟩

/-- Settles O9: besides a command, what a step does touches neither. -/
theorem parametersNeverChange : Obligations.ParametersNeverChange := by
  intro s t h
  cases step_result h with
  | idle _ _ => exact ⟨rfl, Nat.le_refl _⟩
  | powerOnReset _ _ => exact ⟨rfl, Nat.le_refl _⟩
  | rejected _ _ _ => exact ⟨rfl, Nat.le_refl _⟩
  | command _ _ _ hresult => exact hresult.params_draws

/-! ### Steps without a transaction -/

/-- Settles O7: a running ISB passes the guard of an idle step, which answers the same state. -/
theorem idleKeepsState : Obligations.IdleKeepsState := by
  intro s hrun hin
  have hstep : step s = idle s := by simp only [step, hin]
  rw [hstep, idle, State.whenRunning_of_running _ hrun]

/-- Settles O21: a power-on reset writes the registers and the store alone. -/
theorem powerOnResetKeepsThePorts : Obligations.PowerOnResetKeepsThePorts := by
  intro s t rest hin h
  cases step_result h with
  | powerOnReset hin' _ =>
    obtain rfl := (List.cons.inj (hin.symm.trans hin')).2
    exact ⟨rfl, rfl, rfl, rfl⟩
  | idle hin' _ | rejected hin' _ _ | command hin' _ _ _ => exact nomatch hin.symm.trans hin'

/-- Settles O19: every step but a power-on reset that answers a state started from a running ISB. -/
theorem firstFaultIsKept : Obligations.FirstFaultIsKept := by
  intro s t h _
  cases step_result h with
  | powerOnReset hin _ => exact .inr (hin ▸ rfl)
  | idle _ hrun | rejected _ hrun _ | command _ hrun _ _ => exact .inl hrun.2

/-! ### Parameters outside the constraints -/

theorem State.requireParams_of_illegal {s : State} (k : Host.Outcome State Fault Refusal)
    (h : s.params.legal = false) : s.requireParams k = .refused .illegalParameters := by
  simp [State.requireParams, h]

theorem exec_of_illegal (i : Instr) {s : State} (h : s.params.legal = false) :
    exec i s = .refused .illegalParameters := by
  cases i <;> exact State.requireParams_of_illegal _ h

/-- Settles O8: the check of the parameters is the outermost guard of every command and of every step. -/
theorem illegalParametersRefused : Obligations.IllegalParametersRefused := by
  intro s hout
  have hillegal : s.params.legal = false := decide_eq_false hout
  refine ⟨fun i => exec_of_illegal i hillegal, ?step⟩
  unfold step
  split
  case h_1 => exact State.requireParams_of_illegal _ hillegal
  case h_2 => exact State.requireParams_of_illegal _ hillegal
  case h_3 =>
    split
    · exact exec_of_illegal _ hillegal
    · exact State.requireParams_of_illegal _ hillegal

/-! ### Which command writes a memory, and where -/

/-- A command that changes a store byte is an append, and the byte lies in the sample or the block at its cursor. -/
theorem CommandResult.store_change {s t : State} {i : Instr} {x : Nat} (h : CommandResult s i t)
    (hx : t.store.read x ≠ s.store.read x) :
    ∃ c, (∃ v, i = .appendS (channelNumber c) v ∧
        (x = (s.wcur c).toNat ∨ x = (s.wcur c).toNat + 1)) ∨
      ∃ fs, i = .appendB (channelNumber c) fs ∧
        ∃ k, k < 32 ∧ (x = (s.wcur c).toNat + 4 * k ∨ x = (s.wcur c).toNat + 4 * k + 1) := by
  cases h with
  | faults _ => exact absurd rfl hx
  | @appendS c v _ =>
    refine ⟨c, .inl ⟨v, rfl, ?_⟩⟩
    by_contra hout
    obtain ⟨hlow, hhigh⟩ := not_or.mp hout
    exact hx (s.writeSample_read_other v hlow hhigh)
  | @appendB c fs hlen _ =>
    refine ⟨c, .inr ⟨fs, rfl, ?_⟩⟩
    by_contra hout
    push Not at hout
    exact hx (s.writeBlock_read_other _ x fs fun k hk => hout k (hlen ▸ hk))
  | finalize => exact absurd rfl hx
  | read _ =>
    rw [State.copyOut_eq] at hx
    exact absurd rfl hx
  | reset => exact absurd rfl hx
  | avail => exact absurd rfl hx

/-- A command that changes a byte of DEST is a READ that completes, and the byte lies in its range. -/
theorem CommandResult.dest_change {s t : State} {i : Instr} {x : Nat} (h : CommandResult s i t)
    (hx : t.dest.read x ≠ s.dest.read x) :
    x < s.params.destSize ∧
      ∃ m d, i = .read m d ∧ d.toNat ≤ x ∧ x < d.toNat + s.copyCount m.toNat := by
  cases h with
  | faults _ => exact absurd rfl hx
  | appendS _ => exact absurd rfl hx
  | appendB _ _ =>
    rw [State.writeBlock_eq] at hx
    exact absurd rfl hx
  | finalize => exact absurd rfl hx
  | @read m d hdest =>
    have hrange : d.toNat ≤ x ∧ x < d.toNat + s.copyCount m.toNat := by
      by_contra hout
      exact hx (s.copyOut_read_other s.rcur.toNat d.toNat (s.copyCount m.toNat) x (by omega))
    exact ⟨by omega, m, d, rfl, hrange⟩
  | reset => exact absurd rfl hx
  | avail => exact absurd rfl hx

/-- Settles O47: besides a command, only a power-on reset touches the store. -/
theorem storeChangedByAppendsOnly : Obligations.StoreChangedByAppendsOnly := by
  intro s t x h hx
  cases step_result h with
  | idle _ _ => exact absurd rfl hx
  | powerOnReset hin _ => exact .inl (hin ▸ rfl)
  | rejected _ _ _ => exact absurd rfl hx
  | @command w ops _ _ _ hin _ hdec hresult =>
    obtain ⟨c, ⟨v, rfl, hslot⟩ | ⟨fs, rfl, hslot⟩⟩ := hresult.store_change hx
    · exact .inr ⟨w, ops, c, hin ▸ rfl, .inl ⟨v, hdec, hslot⟩⟩
    · exact .inr ⟨w, ops, c, hin ▸ rfl, .inr ⟨fs, hdec, hslot⟩⟩

/-- Settles O48: besides a command, nothing a step does touches DEST. -/
theorem destChangedByReadOnly : Obligations.DestChangedByReadOnly := by
  intro s t x h hx
  cases step_result h with
  | idle _ _ | powerOnReset _ _ | rejected _ _ _ => exact absurd rfl hx
  | @command w ops _ _ _ hin _ hdec hresult =>
    obtain ⟨hsize, m, d, rfl, hrange⟩ := hresult.dest_change hx
    exact ⟨hsize, w, ops, m, d, hin ▸ rfl, hdec, hrange⟩

end Sys2Proof.Machine
end

section
/-! PROOFS. The append commands (40_append.md): encoding and effect, the conversion of a block sample, the draws, and
where a sequence of appends leaves the samples of each channel. -/

namespace Sys2Proof.Machine

open Sys2Proof.Safety

/-! ### The fields of an append's word -/

theorem chField_eq_ofNat (w : Word) : chField w = BitVec.ofNat 4 (chOf w) := by
  rw [← chField_toNat, BitVec.ofNat_toNat, BitVec.setWidth_eq]

theorem valueField_eq_ofNat (w : Word) : valueField w = BitVec.ofNat 16 (w.toNat % 2 ^ 16) := by
  rw [← valueField_toNat, BitVec.ofNat_toNat, BitVec.setWidth_eq]

theorem withLength_isEmpty (ops : List Word) (i : Instr) :
    withLength ops.isEmpty i = if ops ≠ [] then .error .badLength else .ok i := by
  cases ops <;> rfl

theorem withLength_beq (n m : Nat) (i : Instr) :
    withLength (n == m) i = if n ≠ m then .error .badLength else .ok i := by
  by_cases h : n = m <;> simp [withLength, h]

/-! ### NaN samples and their draws -/

/-- A pattern with the exponent field all ones is read as a NaN exactly where its fraction is not 0. -/
theorem readBinary32_of_nan {f : Word} (hnan : isNaN f = true) : readBinary32 f = .nan := by
  simp only [isNaN, Bool.and_eq_true, beq_iff_eq, bne_iff_ne] at hnan
  rw [readBinary32, binary32Exponent_eq, binary32Fraction_eq, if_pos hnan.1, if_neg hnan.2]

/-- Settles O30: a NaN has no value to clamp, so its sample is a draw. -/
theorem toSampleOfNaNIsDraw : Obligations.ToSampleOfNaNIsDraw :=
  fun _ _ hnan => toSample_of_nan (congrArg clampTrunc (readBinary32_of_nan hnan))

/-- A conversion counts one draw exactly where its pattern is a NaN. -/
theorem toSample_draws (d : Nat) (f : Word) :
    (toSample d f).2 = d + if isNaN f = true then 1 else 0 := by
  cases hnan : isNaN f with
  | true => rw [toSampleOfNaNIsDraw d f hnan]; rfl
  | false => rw [(toSampleIsClampThenTruncate d f hnan).1]; rfl

theorem State.writeBlock_draws (s : State) (a : Nat) (fs : List Word) :
    (s.writeBlock a fs).draws = s.draws + fs.countP isNaN := by
  induction fs generalizing s a with
  | nil => rfl
  | cons f rest ih =>
    rw [State.writeBlock, ih, State.writeBlockSample_eq, toSample_draws, List.countP_cons,
      Nat.add_comm (rest.countP isNaN), ← Nat.add_assoc]

/-! ### The conversion of a finite sample -/

theorem trunc_mono : Monotone trunc := by
  intro x y hxy
  unfold trunc
  by_cases hx : 0 ≤ x
  · rw [if_pos hx, if_pos (hx.trans hxy)]
    exact Int.floor_mono hxy
  · by_cases hy : 0 ≤ y
    · rw [if_neg hx, if_pos hy]
      exact (Int.ceil_le.mpr (by simpa using (not_le.mp hx).le)).trans (Int.floor_nonneg.mpr hy)
    · rw [if_neg hx, if_neg hy]
      exact Int.ceil_mono hxy

theorem clamp_eq_max_min (x : ℚ) : clamp x = max (-32767) (min x 32767) := by
  unfold clamp
  split
  case isTrue h => rw [min_eq_right h.le]; norm_num
  case isFalse h =>
    rw [min_eq_left (not_lt.mp h)]
    split
    case isTrue h' => exact (max_eq_left h'.le).symm
    case isFalse h' => exact (max_eq_right (not_lt.mp h')).symm

/-- Truncation keeps the order and the two bounds of the clamp, which are integers. -/
theorem trunc_clamp (x : ℚ) : ((trunc (clamp x) : ℤ) : ℚ) = clamp (trunc x) := by
  have hlow : trunc (-32767) = -32767 := by exact_mod_cast trunc_intCast (-32767)
  have hhigh : trunc 32767 = 32767 := by exact_mod_cast trunc_intCast 32767
  rw [clamp_eq_max_min, clamp_eq_max_min, trunc_mono.map_max, trunc_mono.map_min, hlow, hhigh]
  push_cast
  rfl

theorem isNaN_of_finite {f : Word} (hexp : (f.toNat / 2 ^ 23) % 256 ≠ 255) : isNaN f = false := by
  rw [isNaN, beq_eq_false_iff_ne.mpr hexp, Bool.false_and]

theorem sampleOf_toInt_of_finite {f : Word} (hexp : (f.toNat / 2 ^ 23) % 256 ≠ 255) :
    (sampleOf f).toInt = trunc (clamp (binary32Value f)) := by
  obtain ⟨hlow, hhigh⟩ := clamp_bounds (binary32Value f)
  obtain ⟨hlow', hhigh'⟩ :=
    trunc_bounds (n := 32767) (by decide) (by exact_mod_cast hlow) (by exact_mod_cast hhigh)
  rw [sampleOf, if_neg hexp]
  exact BitVec.toInt_ofInt_eq_self (by decide) (by omega) (by omega)

/-- Settles O29: the order of truncation and clamp does not matter, because the bounds are integers. -/
theorem truncateThenClampAgrees : Obligations.TruncateThenClampAgrees := by
  intro d f hexp
  rw [(toSampleIsClampThenTruncate d f (isNaN_of_finite hexp)).1, sampleOf_toInt_of_finite hexp,
    trunc_clamp]

/-! ### The slots an append writes -/

theorem lowByte_eq (v : Sample) : lowByte v = v.setWidth 8 := by
  rw [← BitVec.toNat_inj, lowByte, BitVec.extractLsb'_toNat, BitVec.toNat_setWidth,
    Nat.shiftRight_zero]

theorem highByte_eq (v : Sample) : highByte v = (v >>> 8).setWidth 8 := by
  rw [← BitVec.toNat_inj, highByte, BitVec.extractLsb'_toNat, BitVec.toNat_setWidth,
    BitVec.toNat_ushiftRight]

theorem holdsSample_of_bytes {m : Memory} {a : Nat} {v : Sample}
    (hlow : m.read a = some (lowByte v)) (hhigh : m.read (a + 1) = some (highByte v)) :
    holdsSample m a (some v) :=
  ⟨lowByte_eq v ▸ hlow, highByte_eq v ▸ hhigh⟩

/-- Whether a slot holds a sample depends on the slot's two bytes alone. -/
theorem holdsSample_congr {m n : Memory} {a : Nat} {x : Option Sample}
    (hlow : n.read a = m.read a) (hhigh : n.read (a + 1) = m.read (a + 1))
    (h : holdsSample m a x) : holdsSample n a x := by
  cases x <;> simpa only [holdsSample, hlow, hhigh] using h

theorem State.writeSample_holdsSample (s : State) (a : Nat) (v : Sample) :
    holdsSample (s.writeSample a v).store a (some v) := by
  refine holdsSample_of_bytes ?_ ?_
  · rw [State.writeSample_store, Memory.read_write_other _ _ (Nat.ne_add_one a),
      Memory.read_write_same]
  · rw [State.writeSample_store, Memory.read_write_same]

/-- The slot of a NaN holds its draw, every other slot the value R63 gives. -/
theorem State.writeBlock_holdsSample (s : State) (a : Nat) {fs : List Word} {k : Nat}
    (hk : k < fs.length) : holdsSample (s.writeBlock a fs).store (a + 4 * k) (slotOf fs[k]) := by
  obtain ⟨v, hlow, hhigh, hvalue⟩ := s.writeBlock_read_slot a k fs hk
  cases hnan : isNaN fs[k] with
  | true =>
    rw [slotOf, if_pos hnan]
    exact ⟨Option.isSome_of_eq_some hlow, Option.isSome_of_eq_some hhigh⟩
  | false =>
    obtain ⟨y, hy, hsample, -⟩ := clampTrunc_readBinary32_of_not_nan hnan
    rw [slotOf, if_neg (Bool.eq_false_iff.mp hnan), hsample, ← hvalue y hy]
    exact holdsSample_of_bytes hlow hhigh

/-! ### The effect of an append -/

/-- Settles O24: the sample's two bytes are the slot at the cursor, and the cursor does not wrap. -/
theorem appendSEffect : Obligations.AppendSEffect := by
  constructor
  · intro w ops hop
    rw [decode_of_op_appendS ops hop, withLength_isEmpty, chField_eq_ofNat, valueField_eq_ofNat]
  · intro s c v hrun hcap
    refine ⟨_, exec_of_result hrun (.appendS hcap), rfl, ?cursor, fun d hd => ?others,
      s.writeSample_holdsSample _ v, fun x hlow hhigh => s.writeSample_read_other v hlow hhigh⟩
    case cursor =>
      rw [State.setWcur_wcur_same]
      exact State.wcur_add_toNat hrun (by omega) (by decide)
    case others => rw [State.setWcur_wcur_other _ _ hd, State.writeSample_wcur]

/-- Settles O25: the loop fills the 32 slots from the cursor on, and the cursor does not wrap. -/
theorem appendBEffect : Obligations.AppendBEffect := by
  constructor
  · intro w ops hop
    rw [decode_of_op_appendB ops hop, withLength_beq, chField_eq_ofNat]
  · intro s c fs hrun hlen hcap
    refine ⟨_, exec_of_result hrun (.appendB hlen hcap), ?frame, ?cursor, fun d hd => ?others,
      fun k hk => s.writeBlock_holdsSample _ hk,
      fun x hx => s.writeBlock_read_other _ x fs fun k hk => hx k (hlen ▸ hk)⟩
    case frame =>
      rw [State.writeBlock_eq]
      rfl
    case cursor =>
      rw [State.setWcur_wcur_same]
      exact State.wcur_add_toNat hrun (by omega) (by decide)
    case others => rw [State.setWcur_wcur_other _ _ hd, State.writeBlock_wcur]

/-- Settles O26: the length of the block is the first thing APPEND.B checks. -/
theorem shortBlockFaults : Obligations.ShortBlockFaults := by
  intro s ch fs hrun hshort
  have hlen : fs.length ≠ 32 := fun hlen => nomatch hshort.symm.trans (beq_iff_eq.mpr hlen)
  rw [exec_of_fault hrun (.appendB_length hlen), raiseFault_eq_faulted]
  rfl

/-! ### A sequence of appends -/

/-- The samples `xs` are channel `c`'s so far: its cursor stands behind them, and the `k`-th lies at 4k + 2c
(20_memory.md R32). -/
def State.HoldsSlots (s : State) (c : Channel) (xs : List (Option Sample)) : Prop :=
  (s.wcur c).toNat = 4 * xs.length + channelStart c ∧
    ∀ k x, xs[k]? = some x → holdsSample s.store (4 * k + channelStart c) x

/-- `t` is `s` after an append of the samples `ys` to channel `c`, as far as the cursors and the store go. -/
structure State.Appended (s t : State) (c : Channel) (ys : List (Option Sample)) : Prop where
  running : t.running
  params : t.params = s.params
  cursor : (t.wcur c).toNat = (s.wcur c).toNat + 4 * ys.length
  others : ∀ d, d ≠ c → t.wcur d = s.wcur d
  slots : ∀ k x, ys[k]? = some x → holdsSample t.store ((s.wcur c).toNat + 4 * k) x
  kept : ∀ a, (∀ k, k < ys.length → a ≠ (s.wcur c).toNat + 4 * k ∧ a ≠ (s.wcur c).toNat + 4 * k + 1) →
    t.store.read a = s.store.read a

theorem exists_channelNumber {ch : BitVec 4} (hch : ch.toNat < 2) : ∃ c, ch = channelNumber c := by
  obtain ⟨c, hc⟩ := Option.ne_none_iff_exists'.mp
    fun hnone => Nat.not_lt.mpr (channelOf?_eq_none.mp hnone) hch
  exact ⟨c, channelOf?_eq_some_iff_channelNumber.mp hc⟩

/-- An append of 1 or 32 samples completes where the last of them ends at most at CAP. -/
theorem exists_appended {s : State} {i : Instr} (hrun : s.running) (hi : isAppend i) :
    ∃ c, (∀ d, d ≠ c → slotsOf d i = []) ∧
      ((s.wcur c).toNat + 4 * (slotsOf c i).length ≤ s.params.cap + 2 →
        ∃ t, exec i s = .next t ∧ s.Appended t c (slotsOf c i)) := by
  cases i with
  | appendS ch v =>
    obtain ⟨c, rfl⟩ := exists_channelNumber hi
    have hslots : slotsOf c (.appendS (channelNumber c) v) = [some v] := if_pos rfl
    refine ⟨c, fun d hd => if_neg (by simpa using hd.symm), fun hcap => ?_⟩
    rw [hslots] at hcap ⊢
    obtain ⟨t, hexec, hframe, hcursor, hothers, hsample, hkept⟩ :=
      appendSEffect.2 s c v hrun (by simp at hcap; omega)
    refine ⟨t, hexec, ⟨hframe ▸ hrun, hframe ▸ rfl, hcursor, hothers, fun k x hx => ?_,
      fun a ha => ?_⟩⟩
    · obtain ⟨hk, rfl⟩ := List.getElem?_eq_some_iff.mp hx
      obtain rfl : k = 0 := by simpa using hk
      exact hsample
    · obtain ⟨hlow, hhigh⟩ := ha 0 (by simp)
      exact hkept a hlow hhigh
  | appendB ch fs =>
    obtain ⟨hch, hlen⟩ := hi
    obtain ⟨c, rfl⟩ := exists_channelNumber hch
    have hslots : slotsOf c (.appendB (channelNumber c) fs) = fs.map slotOf := if_pos rfl
    refine ⟨c, fun d hd => if_neg (by simpa using hd.symm), fun hcap => ?_⟩
    rw [hslots] at hcap ⊢
    rw [List.length_map, hlen] at hcap
    obtain ⟨t, hexec, hframe, hcursor, hothers, hsamples, hkept⟩ :=
      appendBEffect.2 s c fs hrun hlen (by omega)
    refine ⟨t, hexec, ⟨hframe ▸ hrun, hframe ▸ rfl, ?_, hothers, fun k x hx => ?_, fun a ha => ?_⟩⟩
    · rw [hcursor, List.length_map, hlen]
    · rw [List.getElem?_map] at hx
      obtain ⟨f, hf, rfl⟩ := Option.map_eq_some_iff.mp hx
      obtain ⟨hk, rfl⟩ := List.getElem?_eq_some_iff.mp hf
      exact hsamples k hk
    · exact hkept a (by simpa [hlen] using ha)
  | finalize | read _ _ | reset | avail => exact absurd hi id

theorem channelStart_cases (c : Channel) : channelStart c = 0 ∨ channelStart c = 2 := by
  cases c <;> decide

/-- The slots of two channels lie apart. -/
theorem channelStart_ne {c d : Channel} (h : d ≠ c) : channelStart d ≠ channelStart c := by
  revert h
  cases c <;> cases d <;> decide

/-- The slot of an earlier sample, of either channel, is none of the slots an append writes. -/
theorem State.Appended.keeps_sample {s t : State} {c d : Channel} {ys xs : List (Option Sample)}
    (h : s.Appended t c ys) {zs : List (Option Sample)} (hc : s.HoldsSlots c zs)
    (hd : s.HoldsSlots d xs) {k : Nat} {x : Option Sample} (hx : xs[k]? = some x) :
    holdsSample t.store (4 * k + channelStart d) x := by
  have hk : k < xs.length := (List.getElem?_eq_some_iff.mp hx).1
  have hcursor := hc.1
  have hcursor' := hd.1
  have hstart := channelStart_cases c
  have hstart' := channelStart_cases d
  have hbehind : 4 * k + channelStart d + 2 ≤ (s.wcur c).toNat ∨
      channelStart d ≠ channelStart c := by
    by_cases hdc : d = c
    · subst hdc
      exact .inl (by omega)
    · exact .inr (channelStart_ne hdc)
  refine holdsSample_congr (h.kept _ fun j _ => ?_) (h.kept _ fun j _ => ?_) (hd.2 k x hx) <;> omega

/-- An append adds its samples to those of its own channel. -/
theorem State.Appended.holdsSlots {s t : State} {c : Channel} {ys xs : List (Option Sample)}
    (h : s.Appended t c ys) (hc : s.HoldsSlots c xs) : t.HoldsSlots c (xs ++ ys) := by
  have hcursor := hc.1
  refine ⟨?_, fun k x hx => ?_⟩
  · rw [h.cursor, List.length_append]
    omega
  · obtain hlt | hge := Nat.lt_or_ge k xs.length
    · rw [List.getElem?_append_left hlt] at hx
      exact h.keeps_sample hc hc hx
    · rw [List.getElem?_append_right hge] at hx
      have heq : 4 * k + channelStart c = (s.wcur c).toNat + 4 * (k - xs.length) := by omega
      exact heq ▸ h.slots _ x hx

/-- An append leaves the samples of the other channel as they were. -/
theorem State.Appended.holdsSlots_other {s t : State} {c d : Channel}
    {ys xs zs : List (Option Sample)} (h : s.Appended t c ys) (hdc : d ≠ c)
    (hc : s.HoldsSlots c zs) (hd : s.HoldsSlots d xs) : t.HoldsSlots d xs :=
  ⟨h.others d hdc ▸ hd.1, fun _ _ hx => h.keeps_sample hc hd hx⟩

/-- One append of the sequence: where both channels have room, it completes and adds its samples. -/
theorem exec_append_holdsSlots {s : State} {i : Instr} {xs : Channel → List (Option Sample)}
    (hrun : s.running) (hi : isAppend i) (hxs : ∀ c, s.HoldsSlots c (xs c))
    (hroom : ∀ c, (xs c ++ slotsOf c i).length ≤ s.params.frames) :
    ∃ t, exec i s = .next t ∧ t.running ∧ t.params = s.params ∧
      ∀ c, t.HoldsSlots c (xs c ++ slotsOf c i) := by
  obtain ⟨c, hothers, hfits⟩ := exists_appended hrun hi
  have hcursor := (hxs c).1
  have hstart := channelStart_cases c
  have hlen := hroom c
  simp only [List.length_append, Params.frames] at hlen
  obtain ⟨t, hexec, happended⟩ := hfits (by omega)
  refine ⟨t, hexec, happended.running, happended.params, fun d => ?_⟩
  by_cases hdc : d = c
  · subst hdc
    exact happended.holdsSlots (hxs d)
  · rw [hothers d hdc, List.append_nil]
    exact happended.holdsSlots_other hdc (hxs c) (hxs d)

theorem allSlots_cons (c : Channel) (i : Instr) (is : List Instr) :
    allSlots c (i :: is) = slotsOf c i ++ allSlots c is := rfl

/-- A sequence of appends from samples already there: induction over the sequence, with the samples so far. -/
theorem execAll_holdsSlots {is : List Instr} {s : State} {xs : Channel → List (Option Sample)}
    (hrun : s.running) (his : ∀ i ∈ is, isAppend i) (hxs : ∀ c, s.HoldsSlots c (xs c))
    (hroom : ∀ c, (xs c ++ allSlots c is).length ≤ s.params.frames) :
    ∃ t, execAll is s = .next t ∧ t.running ∧ ∀ c, t.HoldsSlots c (xs c ++ allSlots c is) := by
  induction is generalizing s xs with
  | nil => exact ⟨s, rfl, hrun, fun c => (List.append_nil (xs c)).symm ▸ hxs c⟩
  | cons i is ih =>
    simp only [allSlots_cons, ← List.append_assoc] at hroom ⊢
    obtain ⟨u, hexec, hrun', hparams, hslots⟩ :=
      exec_append_holdsSlots hrun (his i List.mem_cons_self) hxs
        (fun c => le_trans (by simp) (hroom c))
    obtain ⟨t, hall, ht⟩ := ih hrun' (fun j hj => his j (List.mem_cons_of_mem i hj)) hslots
      (hparams ▸ hroom)
    exact ⟨t, by rw [execAll, hexec]; exact hall, ht⟩

/-- Settles O31: the start cursors stand behind no samples at all. -/
theorem appendsInterleave : Obligations.AppendsInterleave := by
  intro s is hrun hwcur0 hwcur1 his hroom
  have hstart : ∀ c, s.HoldsSlots c [] := by
    intro c
    refine ⟨?_, fun k x hx => nomatch hx⟩
    cases c with
    | ch0 => exact congrArg BitVec.toNat hwcur0
    | ch1 => exact congrArg BitVec.toNat hwcur1
  exact execAll_holdsSlots (xs := fun _ => []) hrun his hstart hroom

end Sys2Proof.Machine
end

section
/-! PROOFS. READ (41_finalize_read.md): the copy count, reads in parts, complete frames and the count of draws; and what
of the store the host can see (10_state.md R17, R25). -/

namespace Sys2Proof.Machine

open Sys2Proof.Safety

/-! ### The copy count and a byte of the store -/

/-- Settles O33: with RCUR and WEND aligned, what is left needs no rounding. -/
theorem copyCountProperties : Obligations.CopyCountProperties := fun s m =>
  ⟨rfl, fun hinv =>
    ⟨s.copyCount_eq_min m hinv.bytesAvailable_aligned, s.copyCount_aligned m hinv.bytesAvailable_aligned,
      s.copyCount_le_available m, s.copyCount_le_maxCount m⟩⟩

/-- Settles O37: whether the byte is listed in the store decides between the two. -/
theorem storeReadValue : Obligations.StoreReadValue :=
  fun _ _ => ⟨fun _ => State.storeRead_of_read, State.storeRead_of_not_written⟩

/-! ### The draws of READ -/

/-- The loop counts one draw for each byte of its range never written. -/
theorem State.copyOut_draws (s : State) (src dst n : Nat) :
    (s.copyOut src dst n).draws =
      s.draws + (List.range n).countP fun i => !s.written (src + i) := by
  induction n generalizing s src dst with
  | zero => rfl
  | succ n ih =>
    have hfirst : (if s.written src = true then 0 else 1) =
        if (!s.written (src + 0)) = true then 1 else 0 := by
      rw [Nat.add_zero]
      cases s.written src <;> rfl
    rw [State.copyOut_succ, ih, List.range_succ_eq_map, List.countP_cons, List.countP_map,
      Nat.add_comm (List.countP _ _), ← Nat.add_assoc, ← hfirst]
    congr 2
    funext i
    simp [State.written, Nat.add_assoc, Nat.add_comm 1 i]

/-- Settles O39: a command that leaves the ISB running met no fault, so its loop ran. -/
theorem drawsAreCounted : Obligations.DrawsAreCounted := by
  constructor
  · intro s t m d h hrunning
    cases exec_result h with
    | faults _ => exact absurd (raiseFault_halted ..) (Bool.eq_false_iff.mp hrunning)
    | read _ => exact s.copyOut_draws _ _ _
  · intro s t ch fs h hrunning
    cases exec_result h with
    | faults _ => exact absurd (raiseFault_halted ..) (Bool.eq_false_iff.mp hrunning)
    | appendB _ _ => exact s.writeBlock_draws _ fs

/-! ### Reads in parts -/

/-- `s` after a READ of `n` bytes to the destination offset `d` (41_finalize_read.md R69);
`commandResult_read` ties it to the command. -/
def State.afterRead (s : State) (d n : Nat) : State :=
  { s with
    rcur := s.rcur + BitVec.ofNat 32 n
    dest := (s.copyOut s.rcur.toNat d n).dest
    draws := (s.copyOut s.rcur.toNat d n).draws
    responses := s.responses ++ [BitVec.ofNat 32 n] }

theorem commandResult_read {s : State} {m : BitVec 28} {d : Word} {n : Nat}
    (hn : s.copyCount m.toNat = n) (hdest : d.toNat + n ≤ s.params.destSize) :
    CommandResult s (.read m d) (s.afterRead d.toNat n) := by
  subst hn
  have h : CommandResult s (.read m d) _ := .read hdest
  rwa [State.copyOut_eq] at h

theorem exec_read_of_fits {s : State} {m : BitVec 28} {d : Word} {n : Nat} (hrun : s.running)
    (hn : s.copyCount m.toNat = n) (hdest : d.toNat + n ≤ s.params.destSize) :
    exec (.read m d) s = .next (s.afterRead d.toNat n) :=
  exec_of_result hrun (commandResult_read hn hdest)

/-- Two READs in a row leave what one READ of both counts leaves, but for the words delivered. -/
theorem State.afterRead_afterRead (s : State) (d : Nat) {n1 n2 : Nat}
    (hrcur : (s.rcur + BitVec.ofNat 32 n1).toNat = s.rcur.toNat + n1) :
    (s.afterRead d n1).afterRead (d + n1) n2 =
      { s.afterRead d (n1 + n2) with
        responses := s.responses ++ [BitVec.ofNat 32 n1, BitVec.ofNat 32 n2] } := by
  have hcursor : s.rcur + BitVec.ofNat 32 n1 + BitVec.ofNat 32 n2 =
      s.rcur + BitVec.ofNat 32 (n1 + n2) := by rw [BitVec.ofNat_add, BitVec.add_assoc]
  have hresponses : s.responses ++ [BitVec.ofNat 32 n1] ++ [BitVec.ofNat 32 n2] =
      s.responses ++ [BitVec.ofNat 32 n1, BitVec.ofNat 32 n2] := List.append_assoc ..
  obtain ⟨hdest, hdraws⟩ := State.copyOut_congr (s.afterRead d n1) (s.copyOut s.rcur.toNat d n1)
    (s.rcur.toNat + n1) (d + n1) n2 rfl rfl fun i _ => by rw [State.copyOut_eq]; rfl
  rw [← State.copyOut_add] at hdest hdraws
  unfold State.afterRead at hdest hdraws ⊢
  dsimp only
  rw [hcursor, hresponses, hrcur, hdest, hdraws]

/-- What is left between the cursors fits a READ's MAXCOUNT (00_scope.md R5). -/
theorem State.Inv.bytesAvailable_lt {s : State} (hinv : s.Inv) : s.bytesAvailable < 0x0FFFFFFF := by
  have hcap := Params.cap_le_of_legal hinv.params_legal
  have hwcur0 := hinv.wcur0_le
  have hwend := hinv.wend_le
  unfold State.bytesAvailable
  omega

/-- A READ of a whole number of frames that is left copies all of it. -/
theorem State.copyCount_of_le {s : State} {n : Nat} (haligned : n % 4 = 0)
    (hle : n ≤ s.bytesAvailable) : s.copyCount n = n := by
  rw [State.copyCount, if_neg (Nat.not_lt.mpr hle), haligned, Nat.sub_zero]

/-- Settles O36: the first READ moves RCUR by what it copied, so the second goes on where the first stopped, and one
READ of the sum, a whole number of frames that is left, copies both ranges. -/
theorem readsInPartsDeliverTheSame : Obligations.ReadsInPartsDeliverTheSame := by
  intro s m1 m2 d1 d2 n1 n2 hinv hhalted hn1 hn2 hd2 hdest
  have hrun : s.running := ⟨hinv.params_legal, hhalted⟩
  have hrcur : (s.rcur + BitVec.ofNat 32 n1).toNat = s.rcur.toNat + n1 :=
    hn1 ▸ s.rcur_add_copyCount_toNat m1.toNat
  have hinv1 : State.Inv { s with rcur := s.rcur + BitVec.ofNat 32 n1 } :=
    hn1 ▸ hinv.read_cursor m1.toNat
  have haligned1 : n1 % 4 = 0 := hn1 ▸ s.copyCount_aligned _ hinv.bytesAvailable_aligned
  have haligned2 : n2 % 4 = 0 := hn2 ▸ State.copyCount_aligned _ _ hinv1.bytesAvailable_aligned
  have hle1 : n1 ≤ s.bytesAvailable := hn1 ▸ s.copyCount_le_available _
  have hle2 : n2 ≤ s.wend.toNat - (s.rcur + BitVec.ofNat 32 n1).toNat :=
    hn2 ▸ State.copyCount_le_available _ _
  have hsum : n1 + n2 ≤ s.bytesAvailable := by
    unfold State.bytesAvailable at hle1 ⊢
    omega
  have hm3 : (BitVec.ofNat 28 (n1 + n2)).toNat = n1 + n2 := by
    have hlt := hinv.bytesAvailable_lt
    rw [BitVec.toNat_ofNat]
    omega
  have hn3 : s.copyCount (BitVec.ofNat 28 (n1 + n2)).toNat = n1 + n2 := by
    rw [hm3, State.copyCount_of_le (by omega) hsum]
  have hparts := s.afterRead_afterRead d1.toNat (n2 := n2) hrcur
  rw [← hd2] at hparts
  refine ⟨s.afterRead d1.toNat n1, (s.afterRead d1.toNat n1).afterRead d2.toNat n2,
    s.afterRead d1.toNat (n1 + n2), exec_read_of_fits hrun hn1.symm (by omega), ?second,
    exec_read_of_fits hrun hn3 (by omega), hparts ▸ rfl, rfl, hparts ▸ rfl⟩
  case second =>
    have hfits : d2.toNat + n2 ≤ s.params.destSize := by omega
    exact exec_read_of_fits (s := s.afterRead d1.toNat n1) hrun hn2.symm hfits

/-! ### Complete frames -/

/-- Where channel 1 is not behind WEND, every byte below WEND is written: channel 0 never is. -/
theorem State.Inv.written_of_lt_wend {s : State} (hinv : s.Inv)
    (hwcur1 : s.wend.toNat + 2 ≤ s.wcur1.toNat) {a : Nat} (ha : a < s.wend.toNat) :
    s.written a = true := by
  have hwcur0 := hinv.wend_le
  obtain hslot0 | hslot1 := Nat.lt_or_ge (a % 4) 2
  · exact hinv.slots0_written a (by omega) hslot0
  · exact hinv.slots1_written a (by omega) hslot1

/-- Settles O38: the range of a READ lies below WEND, so all of its bytes are written. -/
theorem completeFramesAreDelivered : Obligations.CompleteFramesAreDelivered := by
  rintro s m d n hinv hhalted hwcur1 rfl hdest
  have hle : s.copyCount m.toNat ≤ s.wend.toNat - s.rcur.toNat := s.copyCount_le_available _
  have hwritten : ∀ i, i < s.copyCount m.toNat → s.written (s.rcur.toNat + i) = true :=
    fun i hi => hinv.written_of_lt_wend hwcur1 (by omega)
  refine ⟨_, exec_read_of_fits ⟨hinv.params_legal, hhalted⟩ rfl hdest,
    s.copyOut_draws_of_written _ _ _ hwritten, fun i hi => ?_⟩
  obtain ⟨b, hb⟩ := Option.isSome_iff_exists.mp (hwritten i hi)
  obtain ⟨b', hb', heq⟩ := s.copyOut_read_range s.rcur.toNat d.toNat _ i hi
  exact ⟨⟨b, hb⟩, (heq b hb ▸ hb').trans hb.symm⟩

/-! ### What the host sees -/

@[simp] theorem State.wcur_with_store (s : State) (m : Memory) (c : Channel) :
    State.wcur { s with store := m } c = s.wcur c := by
  cases c <;> rfl

theorem appendFault_with_store (s : State) (m : Memory) (ch : BitVec 4) (reach : Nat) :
    appendFault { s with store := m } ch reach = appendFault s ch reach := by
  simp only [appendFault, State.wcur_with_store]

/-- No fault of a command depends on the store. -/
theorem commandFault_with_store (s : State) (m : Memory) (i : Instr) :
    commandFault { s with store := m } i = commandFault s i := by
  cases i with
  | appendS ch v => exact appendFault_with_store s m ch 2
  | appendB ch fs => rw [commandFault, appendFault_with_store]; rfl
  | read _ _ | finalize | reset | avail => rfl

/-- A READ does not depend on the store outside the range it copies. -/
theorem State.afterRead_with_store {s : State} {d n : Nat} {m : Memory}
    (hm : ∀ a, s.rcur.toNat ≤ a → a < s.rcur.toNat + n → m.read a = s.store.read a) :
    State.afterRead { s with store := m } d n = { s.afterRead d n with store := m } := by
  obtain ⟨hdest, hdraws⟩ := State.copyOut_congr { s with store := m } s s.rcur.toNat d n rfl rfl
    fun i hi => hm _ (by omega) (by omega)
  unfold State.afterRead
  dsimp only
  rw [hdest, hdraws]

/-- Of a command's effect only the store depends on the store outside `[RCUR, WEND)`: an append counts its draws by
its own samples, and READ copies nothing at or past WEND (41_finalize_read.md R70). -/
theorem CommandResult.with_store {s t : State} {i : Instr} (h : CommandResult s i t) {m : Memory}
    (hm : ∀ a, s.rcur.toNat ≤ a → a < s.wend.toNat → m.read a = s.store.read a) :
    ∃ n, CommandResult { s with store := m } i { t with store := n } := by
  cases h with
  | faults hfault =>
    refine ⟨m, .faults (commandFaults_iff.mpr ?_)⟩
    rw [commandFault_with_store]
    exact commandFaults_iff.mp hfault
  | @appendS c v hcap =>
    have hresult : CommandResult { s with store := m } (.appendS (channelNumber c) v) _ :=
      .appendS ((s.wcur_with_store m c).symm ▸ hcap)
    rw [State.wcur_with_store] at hresult
    exact ⟨_, hresult⟩
  | @appendB c fs hlen hcap =>
    have hresult : CommandResult { s with store := m } (.appendB (channelNumber c) fs) _ :=
      .appendB hlen ((s.wcur_with_store m c).symm ▸ hcap)
    rw [State.wcur_with_store, State.writeBlock_eq, State.writeBlock_draws] at hresult
    rw [State.writeBlock_eq, State.writeBlock_draws]
    exact ⟨_, hresult⟩
  | finalize => exact ⟨m, .finalize⟩
  | @read maxCount d hdest =>
    have hle : s.copyCount maxCount.toNat ≤ s.wend.toNat - s.rcur.toNat :=
      s.copyCount_le_available _
    have hresult := commandResult_read (s := { s with store := m }) (n := s.copyCount maxCount.toNat)
      rfl hdest
    rw [State.afterRead_with_store fun a hlow hhigh => hm a hlow (by omega)] at hresult
    rw [State.copyOut_eq]
    exact ⟨m, hresult⟩
  | reset => exact ⟨m, .reset⟩
  | avail => exact ⟨m, .avail⟩

/-- Settles O50: outside its command a step reads nothing of the store. -/
theorem unreadableBytesStayHidden : Obligations.UnreadableBytesStayHidden := by
  intro s s' m hm h
  suffices hstep : ∃ n, step { s with store := m } = .next { s' with store := n } by
    obtain ⟨n, hn⟩ := hstep
    exact ⟨_, hn, rfl, rfl⟩
  cases step_result h with
  | idle hin hrun => exact ⟨m, idleKeepsState { s with store := m } hrun hin⟩
  | powerOnReset hin hlegal =>
    exact ⟨[], step_of_powerOnReset (s := { s with store := m }) hlegal hin⟩
  | rejected hin hrun hdec =>
    have hstep := step_of_decode_error (s := { s with store := m }) hrun hin hdec
    rw [← raiseFault_eq_faulted] at hstep
    exact ⟨m, hstep⟩
  | @command w ops rest i _ hin hrun hdec hresult =>
    obtain ⟨n, hresult'⟩ := hresult.with_store hm
    refine ⟨n, (step_of_decode_ok (s := { s with store := m }) hin hdec).trans ?_⟩
    exact exec_of_result (s := { s with inputs := rest, store := m }) hrun hresult'

end Sys2Proof.Machine
end

section
/-! PROOFS. The assembler (30_encoding.md section 7): the lines of APPEND.S and the two pseudo-instructions. -/

namespace Sys2Proof.Machine

open Sys2Proof.Safety

/-! ### Lines and the commands they stand for -/

theorem assemble_appendS_eq (ch : Nat) (value : AsmValue) :
    assemble (.appendS ch value) =
      (fitField 4 ch).bind fun c => (assembleValue value).bind fun v => some [.appendS c v] := rfl

theorem assemble_drain_eq (destOff : Nat) :
    assemble (.drain destOff) = (fitField 32 destOff).bind fun d => some [.read 0x0FFFFFFF d] := rfl

theorem assemble_appendPair_eq (v0 v1 : AsmValue) :
    assemble (.appendPair v0 v1) =
      (assembleValue v0).bind fun x => (assembleValue v1).bind fun y =>
        some [.appendS 0 x, .appendS 1 y] := rfl

/-- A line of APPEND.S assembles where its channel and its value both fit. -/
theorem assemble_appendS_ite {p : Prop} [Decidable p] {value : AsmValue} {x : Sample}
    (hvalue : assembleValue value = if p then some x else none) (ch : Nat) :
    assemble (.appendS ch value) =
      if ch ≤ 15 ∧ p then some [.appendS (BitVec.ofNat 4 ch) x] else none := by
  rw [assemble_appendS_eq, hvalue]
  by_cases hch : ch ≤ 15
  · rw [fitField_eq_some.mpr ⟨Nat.lt_succ_of_le hch, rfl⟩, Option.bind_some]
    by_cases hp : p <;> simp [hch, hp]
  · rw [fitField_eq_none.mpr (Nat.lt_of_not_le hch), if_neg fun h : ch ≤ 15 ∧ p => hch h.1]
    rfl

theorem assembleValue_signed (v : Int) :
    assembleValue (.signed v) =
      if -32768 ≤ v ∧ v ≤ 32767 then some (BitVec.ofInt 16 v) else none := rfl

theorem assembleValue_pattern (p : Nat) :
    assembleValue (.pattern p) = if p ≤ 0xFFFF then some (BitVec.ofNat 16 p) else none := by
  have hfits : p < 2 ^ 16 ↔ p ≤ 0xFFFF := Nat.lt_succ_iff
  simp only [assembleValue, fitField, hfits]

/-- Settles O51: the value's own range is all that the two forms differ in. -/
theorem assembleAppendS : Obligations.AssembleAppendS := fun ch =>
  ⟨fun v => assemble_appendS_ite (assembleValue_signed v) ch,
    fun p => assemble_appendS_ite (assembleValue_pattern p) ch⟩

/-! ### DRAIN and APPEND.PAIR -/

theorem assemble_drain_ite (n : Nat) :
    assemble (.drain n) =
      if n < 2 ^ 32 then some [.read 0x0FFFFFFF (BitVec.ofNat 32 n)] else none := by
  rw [assemble_drain_eq, fitField]
  split <;> rfl

/-- The largest MAXCOUNT is more than is ever left, so DRAIN's READ copies all of it. -/
theorem State.Inv.copyCount_drain {s : State} (hinv : s.Inv) :
    s.copyCount (0x0FFFFFFF#28).toNat = s.bytesAvailable :=
  if_pos hinv.bytesAvailable_lt

/-- The READ that DRAIN stands for, by the effect of READ: RCUR ends at WEND. -/
theorem exec_drain {s : State} (hinv : s.Inv) (hhalted : s.halted = false) {d : Word} {n : Nat}
    (hn : n = s.wend.toNat - s.rcur.toNat) (hdest : d.toNat + n ≤ s.params.destSize) :
    ∃ t, exec (.read 0x0FFFFFFF d) s = .next t ∧
      t = { s with rcur := s.wend, dest := t.dest, responses := t.responses, draws := t.draws } ∧
      t.responses = s.responses ++ [s.wend - s.rcur] ∧
      (∀ i, i < n → ∃ b, t.dest.read (d.toNat + i) = some b ∧
        ∀ v, s.store.read (s.rcur.toNat + i) = some v → b = v) ∧
      (∀ x, x < d.toNat ∨ d.toNat + n ≤ x → t.dest.read x = s.dest.read x) := by
  have hle := hinv.rcur_le
  obtain ⟨t, hexec, hframe, hrcur, hresponses, hcopied, hkept⟩ :=
    readEffect.2 s 0x0FFFFFFF d n ⟨hinv.params_legal, hhalted⟩
      (hn.trans hinv.copyCount_drain.symm) hdest
  have hwend : t.rcur = s.wend := by
    rw [← BitVec.toNat_inj, hrcur]
    omega
  have hword : BitVec.ofNat 32 n = s.wend - s.rcur :=
    (congrArg (BitVec.ofNat 32) hn).trans (State.ofNat_bytesAvailable hle)
  rw [hwend] at hframe
  rw [hword] at hresponses
  exact ⟨t, hexec, hframe, hresponses, hcopied, hkept⟩

theorem assemble_appendPair_of_values {v0 v1 : AsmValue} {x y : Sample}
    (h0 : assembleValue v0 = some x) (h1 : assembleValue v1 = some y) :
    assemble (.appendPair v0 v1) = some [.appendS 0 x, .appendS 1 y] := by
  rw [assemble_appendPair_eq, h0, h1]
  rfl

/-- Settles O52: DRAIN is the READ of the largest MAXCOUNT, and APPEND.PAIR the appends of its two values. -/
theorem pseudoInstructions : Obligations.PseudoInstructions := by
  refine ⟨assemble_drain_ite, ?drain, ?pair, ?signed, ?pattern⟩
  case drain =>
    intro s d n hinv hhalted hn hdest
    refine ⟨?_, exec_drain hinv hhalted hn hdest⟩
    rw [assemble_drain_eq, fitField_toNat]
    rfl
  case pair =>
    intro v0 v1
    have h0 : fitField 4 0 = some 0 := rfl
    have h1 : fitField 4 1 = some 1 := rfl
    rw [assemble_appendPair_eq, assemble_appendS_eq, assemble_appendS_eq, h0, h1]
    cases assembleValue v0 with
    | none => rfl
    | some x => cases assembleValue v1 <;> rfl
  case signed =>
    intro v0 v1 hlow0 hhigh0 hlow1 hhigh1
    exact assemble_appendPair_of_values (if_pos ⟨hlow0, hhigh0⟩) (if_pos ⟨hlow1, hhigh1⟩)
  case pattern =>
    intro p0 p1 h0 h1
    exact assemble_appendPair_of_values ((assembleValue_pattern p0).trans (if_pos h0))
      ((assembleValue_pattern p1).trans (if_pos h1))

end Sys2Proof.Machine
end

section
/-! PROOFS. The assembler's rounding of decimal literals to binary32 (30_encoding.md R56; 93 G1). A finite pattern's
bits [30:0] are read as `k * 2 ^ 23 + r`, which stands for `r` units of the binade `k`; the rounding finds the binade
of the literal and rounds its number of units. -/

namespace Sys2Proof.Machine

open Sys2Proof.Safety

/-! ### Patterns by binade -/

/-- Bits [30:0] written as a binade and a number of units are worth that many units: a fraction of 24 bits has its
leading bit counted in the exponent field, and 2^24 units are 2^23 of the next binade. -/
theorem binary32Magnitude_of_bits {f : Word} {k r : Nat} (hbits : f.toNat % 2 ^ 31 = k * 2 ^ 23 + r)
    (hk : k = 0 ∨ 2 ^ 23 ≤ r) (hr : r ≤ 2 ^ 24) : binary32Magnitude f = r * 2 ^ k := by
  rw [binary32Magnitude, binary32Exponent_eq, binary32Fraction_eq]
  obtain hsub | ⟨hlow, hhigh⟩ | hcarry :
      r < 2 ^ 23 ∨ (2 ^ 23 ≤ r ∧ r < 2 ^ 24) ∨ r = 2 ^ 24 := by omega
  · have hexp : f.toNat / 2 ^ 23 % 256 = 0 := by omega
    have hfrac : f.toNat % 2 ^ 23 = r := by omega
    obtain rfl : k = 0 := by omega
    rw [if_pos hexp, hfrac, Nat.pow_zero, Nat.mul_one]
  · have hexp : f.toNat / 2 ^ 23 % 256 = k + 1 := by omega
    have hfrac : 2 ^ 23 + f.toNat % 2 ^ 23 = r := by omega
    rw [if_neg (by omega), hexp, hfrac, Nat.add_sub_cancel]
  · have hexp : f.toNat / 2 ^ 23 % 256 = k + 2 := by omega
    have hfrac : f.toNat % 2 ^ 23 = 0 := by omega
    rw [if_neg (by omega), hexp, hfrac, hcarry, Nat.add_succ_sub_one, Nat.pow_succ]
    omega

/-- Every pattern has a binade, with fewer than 2^24 units, and at least 2^23 but in the lowest. -/
theorem exists_binade (f : Word) :
    ∃ k r, f.toNat % 2 ^ 31 = k * 2 ^ 23 + r ∧ (k = 0 ∨ 2 ^ 23 ≤ r) ∧ r < 2 ^ 24 := by
  by_cases hexp : f.toNat / 2 ^ 23 % 256 = 0
  · exact ⟨0, f.toNat % 2 ^ 23, by omega, by omega, by omega⟩
  · exact ⟨f.toNat / 2 ^ 23 % 256 - 1, 2 ^ 23 + f.toNat % 2 ^ 23, by omega, by omega, by omega⟩

/-! ### The binade of a fraction -/

/-- The binade the rounding takes for `num / den`. -/
def binadeOf (num den : Nat) : Nat := Nat.log2 (num * 2 ^ 149 / den) - 23

/-- The units of its binade the rounding gives `num / den`. -/
def unitsOf (num den : Nat) : Nat := roundHalfEven (num * 2 ^ 149) (den * 2 ^ binadeOf num den)

theorem roundBinary32_eq (num den : Nat) :
    roundBinary32 num den = binadeOf num den * 2 ^ 23 + unitsOf num den := rfl

theorem lt_binade (num : Nat) {den : Nat} (hden : 0 < den) :
    num * 2 ^ 149 < den * 2 ^ binadeOf num den * 2 ^ 24 := by
  have hlog : num * 2 ^ 149 / den < 2 ^ (Nat.log2 (num * 2 ^ 149 / den) + 1) := Nat.lt_log2_self
  have hle : Nat.log2 (num * 2 ^ 149 / den) + 1 ≤ binadeOf num den + 24 := by
    unfold binadeOf
    omega
  rw [Nat.mul_assoc, ← Nat.pow_add, Nat.mul_comm den]
  exact (Nat.div_lt_iff_lt_mul hden).mp (hlog.trans_le (Nat.pow_le_pow_right (by decide) hle))

theorem binade_le {num den : Nat} (hk : binadeOf num den ≠ 0) :
    den * 2 ^ binadeOf num den * 2 ^ 23 ≤ num * 2 ^ 149 := by
  have hlog : binadeOf num den + 23 = Nat.log2 (num * 2 ^ 149 / den) := by
    unfold binadeOf at hk ⊢
    omega
  have hne : num * 2 ^ 149 / den ≠ 0 := by
    intro h
    rw [h, Nat.log2_zero] at hlog
    omega
  rw [Nat.mul_assoc, ← Nat.pow_add, hlog]
  exact (Nat.mul_le_mul_left den (Nat.log2_self_le hne)).trans (Nat.mul_div_le _ _)

/-! ### The number of units -/

theorem roundHalfEven_mul (n : Nat) {den : Nat} (hden : 0 < den) :
    roundHalfEven (den * n) den = n := by
  simp [roundHalfEven, Nat.mul_div_cancel_left n hden, hden]

theorem le_roundHalfEven {num den n : Nat} (hden : 0 < den) (hn : den * n ≤ num) :
    n ≤ roundHalfEven num den := by
  obtain ⟨hlow, -, -⟩ := roundHalfEven_spec num den hden
  by_contra hlt
  have hmul := Nat.mul_le_mul_left den (Nat.lt_of_not_le hlt)
  rw [Nat.succ_eq_add_one, Nat.mul_add_one] at hmul
  omega

/-- Above an odd number the rounding goes from the midpoint on, the midpoint included. -/
theorem succ_le_roundHalfEven_iff {num den n : Nat} (hden : 0 < den) (hodd : n % 2 = 1) :
    n + 1 ≤ roundHalfEven num den ↔ den * (2 * n + 1) ≤ 2 * num := by
  obtain ⟨hlow, hhigh, htie⟩ := roundHalfEven_spec num den hden
  have hmid : den * (2 * n + 1) = 2 * (den * n) + den := by ring
  constructor
  · intro hle
    have hmul := Nat.mul_le_mul_left den hle
    rw [Nat.mul_add_one] at hmul
    omega
  · intro hle
    by_contra hlt
    have hrn : roundHalfEven num den ≤ n := Nat.le_of_lt_succ (Nat.lt_of_not_le hlt)
    have hmul := Nat.mul_le_mul_left den hrn
    have heven := htie (.inl (by omega))
    have heq : den * roundHalfEven num den = den * n := by omega
    rw [Nat.eq_of_mul_eq_mul_left hden heq] at heven
    omega

theorem unitsOf_le (num : Nat) {den : Nat} (hden : 0 < den) : unitsOf num den ≤ 2 ^ 24 :=
  roundHalfEven_le (Nat.mul_pos hden (Nat.two_pow_pos _)) (lt_binade num hden).le

theorem le_unitsOf {num den : Nat} (hden : 0 < den) (hk : binadeOf num den ≠ 0) :
    2 ^ 23 ≤ unitsOf num den :=
  le_roundHalfEven (Nat.mul_pos hden (Nat.two_pow_pos _)) (binade_le hk)

/-! ### Exact values -/

/-- `r` units of the binade `k` lie in the binade `k`. -/
theorem log2_units {k r : Nat} (hk : k = 0 ∨ 2 ^ 23 ≤ r) (hr : r < 2 ^ 24) :
    Nat.log2 (r * 2 ^ k) - 23 = k := by
  obtain rfl | hlow := hk
  · have hlog : Nat.log2 r < 24 ∨ r = 0 := by
      by_cases h : r = 0
      · exact .inr h
      · exact .inl ((Nat.log2_lt h).mpr hr)
    obtain hlog | rfl := hlog
    · rw [Nat.pow_zero, Nat.mul_one]
      omega
    · rfl
  · have hne : r * 2 ^ k ≠ 0 := (Nat.mul_pos (by omega) (Nat.two_pow_pos k)).ne'
    have hge : k + 23 ≤ Nat.log2 (r * 2 ^ k) := by
      rw [Nat.le_log2 hne, Nat.add_comm, Nat.pow_add]
      exact Nat.mul_le_mul_right _ hlow
    have hlt : Nat.log2 (r * 2 ^ k) < k + 24 := by
      rw [Nat.log2_lt hne, Nat.add_comm, Nat.pow_add]
      exact Nat.mul_lt_mul_of_pos_right hr (Nat.two_pow_pos k)
    omega

/-- Settles O54: a pattern's value is a whole number of units of its own binade. -/
theorem assembleExactValues : Obligations.AssembleExactValues := by
  intro f _
  obtain ⟨k, r, hbits, hk, hr⟩ := exists_binade f
  have hbinade : binadeOf (r * 2 ^ k) (2 ^ 149) = k := by
    rw [binadeOf, Nat.mul_div_cancel _ (Nat.two_pow_pos 149), log2_units hk hr]
  have hunits : unitsOf (r * 2 ^ k) (2 ^ 149) = r := by
    rw [unitsOf, hbinade, show r * 2 ^ k * 2 ^ 149 = 2 ^ 149 * 2 ^ k * r by ring]
    exact roundHalfEven_mul r (Nat.mul_pos (Nat.two_pow_pos 149) (Nat.two_pow_pos k))
  rw [binary32Magnitude_of_bits hbits hk hr.le, roundBinary32_eq, hbinade, hunits, hbits]

/-! ### Literals beyond the largest finite value -/

theorem two_pow_mul_le {a b c d : Nat} (h : a + b ≤ c + d) : 2 ^ a * 2 ^ b ≤ 2 ^ c * 2 ^ d := by
  rw [← Nat.pow_add, ← Nat.pow_add]
  exact Nat.pow_le_pow_right (by decide) h

/-- The rounding reaches the exponent field 255 exactly from the midpoint above the largest finite value, 2^24 - 1
units of the binade 253, on: that number of units is odd, so the midpoint itself goes up. -/
theorem le_roundBinary32_iff (num : Nat) {den : Nat} (hden : 0 < den) :
    0x7F800000 ≤ roundBinary32 num den ↔ (2 ^ 25 - 1) * 2 ^ 103 * den ≤ num := by
  have hlt := lt_binade num hden
  have hle := unitsOf_le num hden
  rw [roundBinary32_eq]
  obtain hbelow | heq | habove := Nat.lt_trichotomy (binadeOf num den) 253
  · have hpow : 2 ^ binadeOf num den * 2 ^ 24 ≤ 2 ^ 127 * 2 ^ 149 :=
      two_pow_mul_le (by omega)
    have hnum : num < den * 2 ^ 127 := by
      refine Nat.lt_of_mul_lt_mul_right (a := 2 ^ 149) (hlt.trans_le ?_)
      rw [Nat.mul_assoc, Nat.mul_assoc]
      exact Nat.mul_le_mul_left den hpow
    omega
  · have hmid := succ_le_roundHalfEven_iff (num := num * 2 ^ 149) (den := den * 2 ^ 253)
      (n := 2 ^ 24 - 1) (Nat.mul_pos hden (Nat.two_pow_pos 253)) (by decide)
    have hunits : unitsOf num den = roundHalfEven (num * 2 ^ 149) (den * 2 ^ 253) := by
      rw [unitsOf, heq]
    rw [← hunits] at hmid
    omega
  · have hge := le_unitsOf (num := num) hden (by omega)
    have hpow : 2 ^ 128 * 2 ^ 149 ≤ 2 ^ binadeOf num den * 2 ^ 23 :=
      two_pow_mul_le (by omega)
    have hnum : den * 2 ^ 128 ≤ num := by
      refine Nat.le_of_mul_le_mul_right (c := 2 ^ 149) ?_ (Nat.two_pow_pos 149)
      refine le_trans ?_ (binade_le (num := num) (den := den) (by omega))
      rw [Nat.mul_assoc, Nat.mul_assoc]
      exact Nat.mul_le_mul_left den hpow
    omega

/-! ### The pattern a literal assembles to -/

/-- A literal assembles to the sign over the bits of its rounding, where these are finite. -/
theorem assembleSample_decimal_eq_some {negative : Bool} {digits scale : Nat} {f : Word}
    (h : assembleSample (.decimal negative digits scale) = some f) :
    roundBinary32 digits (10 ^ scale) < 0x7F800000 ∧
      f.toNat = roundBinary32 digits (10 ^ scale) + if negative then 2 ^ 31 else 0 := by
  obtain ⟨hlt, ⟨⟩⟩ := Option.ite_none_right_eq_some.mp h
  refine ⟨hlt, ?_⟩
  cases negative <;> simp <;> omega

theorem assembleSample_decimal_eq_none {negative : Bool} {digits scale : Nat} :
    assembleSample (.decimal negative digits scale) = none ↔
      0x7F800000 ≤ roundBinary32 digits (10 ^ scale) := by
  simp only [assembleSample, ite_eq_right_iff, reduceCtorEq, imp_false, not_lt]

theorem getLsbD_sign_of_toNat {f : Word} {negative : Bool} {m : Nat} (hm : m < 2 ^ 31)
    (hf : f.toNat = m + if negative then 2 ^ 31 else 0) : f.getLsbD 31 = negative := by
  rw [BitVec.getLsbD, Nat.testBit_eq_decide_div_mod_eq, hf]
  cases negative <;> simp <;> omega

/-! ### Nearest values over the rationals -/

/-- An integer within half of a rational is nearest to it; another one equally near is half away too. -/
theorem abs_sub_le_of_le_half {n : ℤ} {y : ℚ} (h : |(n : ℚ) - y| ≤ 1 / 2) (j : ℤ) :
    |(n : ℚ) - y| ≤ |(j : ℚ) - y| ∧
      (|(n : ℚ) - y| = |(j : ℚ) - y| → (n : ℚ) ≠ j → |(n : ℚ) - y| = 1 / 2) := by
  by_cases hnj : n = j
  · subst hnj
    exact ⟨le_refl _, fun _ hne => absurd rfl hne⟩
  · have hone : (1 : ℚ) ≤ |(n : ℚ) - j| := by exact_mod_cast Int.one_le_abs (sub_ne_zero.mpr hnj)
    have htriangle : |(n : ℚ) - j| ≤ |(n : ℚ) - y| + |(j : ℚ) - y| := by
      rw [abs_sub_comm (j : ℚ) y]
      exact abs_sub_le _ _ _
    exact ⟨by linarith, fun heq _ => by linarith⟩

/-- Where a rational is at least the integer `b` in magnitude, all that is less than `b` lies farther from it than
the integer within half of it does. -/
theorem abs_sub_lt_of_abs_lt {n b : ℤ} {y w : ℚ} (h : |(n : ℚ) - y| ≤ 1 / 2) (hy : (b : ℚ) ≤ |y|)
    (hw : |w| < b) : |(n : ℚ) - y| < |w - y| := by
  obtain ⟨hlow, hhigh⟩ := abs_lt.mp hw
  obtain hpos | hneg := abs_cases y
  · have hb := (abs_sub_le_of_le_half h b).1
    rw [abs_of_nonpos (by linarith : (b : ℚ) - y ≤ 0)] at hb
    rw [abs_of_neg (by linarith : w - y < 0)]
    linarith
  · have hb := (abs_sub_le_of_le_half h (-b)).1
    push_cast at hb
    rw [abs_of_nonneg (by linarith : 0 ≤ -(b : ℚ) - y)] at hb
    rw [abs_of_pos (by linarith : 0 < w - y)]
    linarith

/-- `roundHalfEven` is within half of the fraction, and even where it is half away. -/
theorem abs_roundHalfEven_sub_le (num : Nat) {den : Nat} (hden : 0 < den) :
    |(roundHalfEven num den : ℚ) - num / den| ≤ 1 / 2 ∧
      (|(roundHalfEven num den : ℚ) - num / den| = 1 / 2 → roundHalfEven num den % 2 = 0) := by
  obtain ⟨hlow, hhigh, htie⟩ := roundHalfEven_spec num den hden
  generalize roundHalfEven num den = r at *
  have hden' : (0 : ℚ) < den := Nat.cast_pos.mpr hden
  have hnum : (num : ℚ) = den * (num / den) := (mul_div_cancel₀ _ hden'.ne').symm
  generalize (num : ℚ) / den = y at *
  have hlow' : (2 * num : ℚ) ≤ 2 * (den * r) + den := by exact_mod_cast hlow
  have hhigh' : (2 * (den * r) : ℚ) ≤ 2 * num + den := by exact_mod_cast hhigh
  rw [hnum] at hlow' hhigh'
  refine ⟨abs_le.mpr ⟨?_, ?_⟩, fun heq => htie ?_⟩
  · exact le_of_mul_le_mul_left (by linarith) hden'
  · exact le_of_mul_le_mul_left (by linarith) hden'
  · obtain heq | heq := (abs_eq (by norm_num)).mp heq
    · obtain rfl : y = r - 1 / 2 := by linarith
      right
      have : (2 * (den * r) : ℚ) = 2 * num + den := by rw [hnum]; ring
      exact_mod_cast this
    · obtain rfl : y = r + 1 / 2 := by linarith
      left
      have : (2 * num : ℚ) = 2 * (den * r) + den := by rw [hnum]; ring
      exact_mod_cast this

/-! ### Values in units of a binade -/

/-- One unit of the binade `k` (93 G1). -/
def binadeUnit (k : Nat) : ℚ := 2 ^ k / 2 ^ 149

theorem binadeUnit_pos (k : Nat) : 0 < binadeUnit k := by
  unfold binadeUnit
  positivity

/-- The sign of a literal or of a pattern. -/
def signOf (negative : Bool) : ℤ := if negative then -1 else 1

theorem abs_signOf (negative : Bool) : |(signOf negative : ℚ)| = 1 := by
  cases negative <;> norm_num [signOf]

/-- A pattern's value is its signed number of units. -/
theorem binary32Value_of_bits {f : Word} {k r : Nat} (hbits : f.toNat % 2 ^ 31 = k * 2 ^ 23 + r)
    (hk : k = 0 ∨ 2 ^ 23 ≤ r) (hr : r ≤ 2 ^ 24) :
    binary32Value f = ((signOf (f.getLsbD 31) * r : ℤ) : ℚ) * binadeUnit k := by
  rw [binary32Value_eq_magnitude, binary32Magnitude_of_bits hbits hk hr, binary32Sign, signOf, binadeUnit]
  push_cast
  ring

/-- Measured in units of the binade `k`, the value of any pattern is an integer, or its magnitude is below that of the
normal patterns of the binade. -/
theorem binary32Value_eq_units (g : Word) (k : Nat) :
    ∃ w : ℚ, binary32Value g = w * binadeUnit k ∧ ((∃ j : ℤ, w = j) ∨ (k ≠ 0 ∧ |w| < 2 ^ 23)) := by
  obtain ⟨l, r, hbits, hl, hr⟩ := exists_binade g
  rw [binary32Value_of_bits hbits hl hr.le]
  obtain ⟨d, rfl⟩ | ⟨d, rfl⟩ : (∃ d, l = k + d) ∨ ∃ d, k = l + 1 + d := by
    obtain h | h := Nat.lt_or_ge l k
    · exact .inr ⟨k - (l + 1), by omega⟩
    · exact .inl ⟨l - k, by omega⟩
  · refine ⟨_, ?_, .inl ⟨signOf (g.getLsbD 31) * r * 2 ^ d, rfl⟩⟩
    rw [binadeUnit, binadeUnit]
    push_cast
    ring
  · have hpow : (0 : ℚ) < 2 ^ (1 + d) := by positivity
    refine ⟨signOf (g.getLsbD 31) * (r / 2 ^ (1 + d)), ?_, .inr ⟨by omega, ?_⟩⟩
    · rw [binadeUnit, binadeUnit]
      push_cast
      field_simp
      ring
    · have hr' : (r : ℚ) < 2 ^ 24 := by exact_mod_cast hr
      have hone : (1 : ℚ) ≤ 2 ^ d := one_le_pow₀ one_le_two
      rw [abs_mul, abs_signOf, one_mul, abs_of_nonneg (by positivity), div_lt_iff₀ hpow, pow_add]
      linarith

/-- A fraction in units of its binade, before it is rounded. -/
def exactUnits (num den : Nat) : ℚ := (num * 2 ^ 149 : Nat) / (den * 2 ^ binadeOf num den : Nat)

theorem exactUnits_mul_binadeUnit (num : Nat) {den : Nat} (hden : 0 < den) :
    exactUnits num den * binadeUnit (binadeOf num den) = num / den := by
  have hden' : (den : ℚ) ≠ 0 := Nat.cast_ne_zero.mpr hden.ne'
  rw [exactUnits, binadeUnit]
  push_cast
  field_simp
  ring

theorem le_exactUnits {num den : Nat} (hden : 0 < den) (hk : binadeOf num den ≠ 0) :
    2 ^ 23 ≤ exactUnits num den := by
  have hpos : (0 : ℚ) < (den * 2 ^ binadeOf num den : Nat) :=
    Nat.cast_pos.mpr (Nat.mul_pos hden (Nat.two_pow_pos _))
  rw [exactUnits, le_div_iff₀ hpos, mul_comm]
  exact_mod_cast binade_le hk

/-- No value of a pattern lies nearer to a fraction than the fraction's rounding, and one equally near leaves the
rounding with an even number of units. -/
theorem abs_unitsOf_sub_le {num den : Nat} (hden : 0 < den) (negative : Bool) {w : ℚ}
    (hw : (∃ j : ℤ, w = j) ∨ (binadeOf num den ≠ 0 ∧ |w| < 2 ^ 23)) :
    |((signOf negative * unitsOf num den : ℤ) : ℚ) - signOf negative * exactUnits num den| ≤
        |w - signOf negative * exactUnits num den| ∧
      (|((signOf negative * unitsOf num den : ℤ) : ℚ) - signOf negative * exactUnits num den| =
          |w - signOf negative * exactUnits num den| →
        ((signOf negative * unitsOf num den : ℤ) : ℚ) ≠ w → unitsOf num den % 2 = 0) := by
  obtain ⟨hhalf, heven⟩ := abs_roundHalfEven_sub_le (num * 2 ^ 149)
    (Nat.mul_pos hden (Nat.two_pow_pos (binadeOf num den)))
  have hsigned : |((signOf negative * unitsOf num den : ℤ) : ℚ) -
      signOf negative * exactUnits num den| = |(unitsOf num den : ℚ) - exactUnits num den| := by
    push_cast
    rw [← mul_sub, abs_mul, abs_signOf, one_mul]
  have hhalf' := hsigned.trans_le hhalf
  obtain ⟨j, rfl⟩ | ⟨hk, hw⟩ := hw
  · obtain ⟨hle, htie⟩ := abs_sub_le_of_le_half hhalf' j
    exact ⟨hle, fun heq hne => heven (hsigned.symm.trans (htie heq hne))⟩
  · have hlarge : ((2 ^ 23 : ℤ) : ℚ) ≤ |signOf negative * exactUnits num den| := by
      rw [abs_mul, abs_signOf, one_mul]
      exact_mod_cast (le_exactUnits hden hk).trans (le_abs_self _)
    have hlt := abs_sub_lt_of_abs_lt hhalf' hlarge (by exact_mod_cast hw)
    exact ⟨hlt.le, fun heq => absurd heq hlt.ne⟩

/-! ### The literals -/

/-- What a literal assembles to: the finite pattern with the literal's sign and its number of units. -/
theorem assembled_decimal {negative : Bool} {digits scale : Nat} {f : Word}
    (h : assembleSample (.decimal negative digits scale) = some f) :
    (f.toNat / 2 ^ 23) % 256 ≠ 255 ∧ f.getLsbD 31 = negative ∧
      f.toNat % 2 = unitsOf digits (10 ^ scale) % 2 ∧
      binary32Value f = ((signOf negative * unitsOf digits (10 ^ scale) : ℤ) : ℚ) *
        binadeUnit (binadeOf digits (10 ^ scale)) := by
  have hden : 0 < 10 ^ scale := Nat.pow_pos (by decide)
  obtain ⟨hlt, hf⟩ := assembleSample_decimal_eq_some h
  have hsign := getLsbD_sign_of_toNat (by omega) hf
  have hbits : f.toNat % 2 ^ 31 = roundBinary32 digits (10 ^ scale) := by
    cases negative <;> simp at hf <;> omega
  rw [roundBinary32_eq] at hlt hbits
  have hk : binadeOf digits (10 ^ scale) = 0 ∨ 2 ^ 23 ≤ unitsOf digits (10 ^ scale) :=
    or_iff_not_imp_left.mpr (le_unitsOf hden)
  have hvalue := binary32Value_of_bits hbits hk (unitsOf_le digits hden)
  rw [hsign] at hvalue
  exact ⟨by omega, hsign, by omega, hvalue⟩

/-- Settles O53: every value of a pattern is an integer number of units of the literal's binade, of which the
rounding takes the nearest and, of two, the even one, or it lies below that binade. -/
theorem assembleRoundsToNearestEven : Obligations.AssembleRoundsToNearestEven := by
  intro negative digits scale x hx
  have hden : 0 < 10 ^ scale := Nat.pow_pos (by decide)
  constructor
  · intro f h
    obtain ⟨hfinite, hsign, hparity, hvalue⟩ := assembled_decimal h
    refine ⟨hfinite, hsign, fun g _ => ?_⟩
    obtain ⟨w, hg, hw⟩ := binary32Value_eq_units g (binadeOf digits (10 ^ scale))
    obtain ⟨hle, htie⟩ := abs_unitsOf_sub_le hden negative hw
    have hunit := binadeUnit_pos (binadeOf digits (10 ^ scale))
    have hx' : x = signOf negative * exactUnits digits (10 ^ scale) *
        binadeUnit (binadeOf digits (10 ^ scale)) := by
      rw [hx, mul_assoc, exactUnits_mul_binadeUnit digits hden, signOf]
      push_cast
      rfl
    rw [hvalue, hg, hx', ← sub_mul, ← sub_mul, abs_mul, abs_mul, abs_of_pos hunit, hparity]
    refine ⟨mul_le_mul_of_nonneg_right hle hunit.le, fun heq hne => htie ?_ fun h => hne (h ▸ rfl)⟩
    exact mul_right_cancel₀ hunit.ne' heq
  · have hpos : (0 : ℚ) < 10 ^ scale := by positivity
    rw [assembleSample_decimal_eq_none, le_roundBinary32_iff digits hden, le_div_iff₀ hpos]
    have hcast : (2 ^ 25 - 1 : ℚ) = (2 ^ 25 - 1 : Nat) := by norm_num
    rw [hcast]
    exact_mod_cast Iff.rfl

end Sys2Proof.Machine
end
